-- ==== Sys2Proof/Word.lean ====
section
/-! DEFINITION. The byte and the path token, the two plain words of RXCAP. -/

namespace Sys2Proof

/-- A byte is 8 bits (00_scope.md R4). -/
abbrev Byte := BitVec 8

/-- A path: a value of the result type of `path_of` (10_state.md R31, 00_scope.md R2).
The spec leaves that type OPEN and uses only whether two paths are equal (D17), so a path is a token
(log 2, DESIGN CHOICE). -/
abbrev Path := Nat

end Sys2Proof
end

