-- ==== Sys2Proof/Config.lean ====
section
/-! DEFINITION. The configuration record of RXCAP (00_scope.md R2, 10_state.md R38), `path_of` as plain
data in it, and the free values. -/

namespace Sys2Proof

/-- The byte order `NATIVE` (00_scope.md R2, 20_memory.md R64). -/
inductive ByteOrder where
  | little
  | big
  deriving DecidableEq, Repr

/-- One point of `path_of`: the path of an experiment identifier and a frame index. -/
structure PathEntry where
  expId : String
  index : BitVec 32
  path  : Path
  deriving DecidableEq, Repr

/-- The parameter `path_of` as plain data (00_scope.md R2, D17, U16; log 2): the points listed, the first
entry of a point counting, and the number of the free function that gives every other point.  Its value
at a point is `Machine.pathAt`. -/
structure PathFunction where
  listed : List PathEntry
  rest   : Nat
  deriving DecidableEq, Repr

/-- The configuration record that `START` carries (10_state.md R38).  Masks are `STATUS_W`-bit
values held as naturals, since their width is itself a parameter (log 13). -/
structure Config where
  /-- `N`, the number of CIR samples. -/
  n         : Nat
  /-- `CHUNK`, the meaningful bytes of one full accumulator read. -/
  chunk     : Nat
  /-- `ACC_BASE`, "always 0 in this core". -/
  accBase   : Nat
  /-- `FRAME_CAP`, the capacity of the frame buffer. -/
  frameCap  : Nat
  /-- `IDX_OFF`, the payload offset of the frame index. -/
  idxOff    : Nat
  /-- `STATUS_W`, the width of the device status register. -/
  statusW   : Nat
  /-- `GOOD_MASK`. -/
  goodMask  : Nat
  /-- `ERR_MASK`. -/
  errMask   : Nat
  /-- `DIAG_W`, the number of bytes of a Diagnostics Snapshot. -/
  diagW     : Nat
  /-- `NATIVE`. -/
  native    : ByteOrder
  /-- `MAX_FRAMES`: `none` is an unbounded session. -/
  maxFrames : Option Nat
  /-- `EXP_ID`. -/
  expId     : String
  /-- `path_of`. -/
  pathOf    : PathFunction
  deriving DecidableEq, Repr

namespace Config

/-- `L = 4 * N`, the length of the CIR buffer in bytes (00_scope.md R2). -/
def cirLen (c : Config) : Nat := 4 * c.n

/-- `12 + 4N`, the length of a capture record (30_encoding.md R91). -/
def recordLen (c : Config) : Nat := 12 + 4 * c.n

/-- `GOOD_MASK` has exactly one bit set, inside `STATUS_W` bits (00_scope.md R2, D25). -/
def goodMaskOneBit (c : Config) : Bool :=
  (List.range c.statusW).any fun k => c.goodMask == 2 ^ k

/-- The constraints of the table of 00_scope.md R2 (D14, D25, D26), with `ACC_BASE` at its fixed
value 0 (90_conflicts.md C3). -/
def valid (c : Config) : Bool :=
  decide (1 ≤ c.n) && decide (1 ≤ c.chunk) && decide (c.accBase = 0)
    && decide (c.idxOff + 4 ≤ c.frameCap) && decide (2 ≤ c.statusW)
    && c.goodMaskOneBit && decide (c.errMask ≠ 0) && decide (c.errMask < 2 ^ c.statusW)
    && decide (c.goodMask &&& c.errMask = 0)

/-- Free value (log 2): the path that the free function of a number gives a point.  It has no body, so
no proof can see more of it than that it is a function, which is all a model may assume of `path_of`
(42_record_serializer.md R175, D17). -/
opaque freePath : Nat → String → BitVec 32 → Path

/-- Free value (log 5): the answer of the device with a number, `none` for `FAIL`, else the data of
`OK` (10_state.md R42, U4). -/
opaque freeDevAnswer : Nat → Option Nat

/-- Free value (log 5): whether the answer of the output store with a number is `OK` (U14). -/
opaque freeSinkAnswer : Nat → Bool

/-- The configuration of `State.reset` (log 1, DESIGN CHOICE): what R2 fixes has its fixed value
(`CHUNK` 64, `ACC_BASE` 0, `NATIVE` little); what R2 leaves OPEN has the smallest value its constraint
admits, except `N`, which is the smallest for which a session makes full and final chunk reads. -/
def atReset : Config where
  n := 17
  chunk := 64
  accBase := 0
  frameCap := 4
  idxOff := 0
  statusW := 2
  goodMask := 1
  errMask := 2
  diagW := 0
  native := .little
  maxFrames := none
  expId := ""
  pathOf := { listed := [], rest := 0 }

end Config

end Sys2Proof
end

