-- ==== Sys2Proof/Syntax.lean ====
section
/-! DEFINITION. The sequencer states, the commands and the 31 instructions of RXCAP: one constructor
of `Instr` for every row of spec/opcode_table.json (30_encoding.md R107). -/

namespace Sys2Proof

/-- The values of the sequencer state register `seq` (10_state.md R21).  A reserved code 19 to 31
(30_encoding.md R103) is held too: `reserved c` has code `19 + c` (log 10). -/
inductive Seq where
  | idle | armed
  | frClr | frLen | frData | frIdx | frTs | frAcc0 | frAcc | frDiag | frOpen | frWrite | frCount
  | reClr | reRst | reDiag
  | done | halt | killed
  | reserved (c : Fin 13)
  deriving DecidableEq, Repr

/-- The four macro states of the source (10_state.md R22, 40_reception_state_machine.md R120). -/
inductive MacroState where
  | idle | armed | frameReady | rxError
  deriving DecidableEq, Repr

/-- The mode operand of `RX_ENABLE`: `immediate` is its one legal value (30_encoding.md R103 (4)). -/
inductive RxMode where
  | immediate
  deriving DecidableEq, Repr

/-- The variant operand of `TS_RD` (30_encoding.md R103 (4), 44_device_register_interface.md R207). -/
inductive TsVariant where
  | rx | tx | sys
  deriving DecidableEq, Repr

/-- The names of the nine device commands (44_device_register_interface.md), as `halt_cause` records
them (60_exceptions.md R231). -/
inductive DevName where
  | statusRd | statusClr | rxEnable | rxReset | flenRd | frameRd | tsRd | accRd | diagRd
  deriving DecidableEq, Repr

/-- A device command with its operands (30_encoding.md R108). -/
inductive DevCmd where
  | statusRd
  | statusClr (mask : Nat)
  | rxEnable (mode : RxMode)
  | rxReset
  | flenRd
  | frameRd (len : Nat)
  | tsRd (variant : TsVariant)
  | accRd (size offset : Nat)
  | diagRd
  deriving DecidableEq, Repr

/-- A command to the output store with its operands (30_encoding.md R102). -/
inductive SinkCmd where
  | fileOpen (path : Path)
  | fileWrite (path : Path) (bytes : List Byte)
  deriving DecidableEq, Repr

/-- The four formats of the opcode table (30_encoding.md R99, R100). -/
inductive Format where
  | seq | dri | snk | host
  deriving DecidableEq, Repr

/-- The instructions: the 18 sequencer operations, the 9 device commands, the 2 store commands and
the 2 host operations (30_encoding.md R107). -/
inductive Instr where
  | arm
  | stop
  | poll
  | clrGood
  | rdLen
  | rdFrame
  | xIdx
  | rdTs
  | accInit
  | accL
  | accF
  | frDiag
  | serOpen
  | serWr
  | count
  | clrErr
  | rxRst
  | reDiag
  | statusRd
  | statusClr (mask : Nat)
  | rxEnable (mode : RxMode)
  | rxReset
  | flenRd
  | frameRd (len : Nat)
  | tsRd (variant : TsVariant)
  | accRd (size offset : Nat)
  | diagRd
  | fileOpen (path : Path)
  | fileWrite (path : Path) (bytes : List Byte)
  | start (cfg : Config)
  | kill
  deriving DecidableEq, Repr

/-- A typed operand of an encoded command: "operands are typed values (numbers, masks, paths, byte
sequences) with no bit layout" (30_encoding.md R100). -/
inductive Operand where
  | mask (m : Nat)
  | mode (m : RxMode)
  | number (v : Nat)
  | variant (v : TsVariant)
  | path (p : Path)
  | bytes (b : List Byte)
  | config (c : Config)
  deriving DecidableEq, Repr

/-- An encoded instruction: its format, its code (in the low bits) and its operands
(30_encoding.md R99, R100).  For format SEQ the code is the dispatch word. -/
structure Encoded where
  format   : Format
  code     : BitVec 8
  operands : List Operand
  deriving DecidableEq, Repr

/-- Why the decoder rejects an encoded instruction (30_encoding.md R103). -/
inductive DecodeError where
  /-- A dispatch word that matches no SEQ row: `IllegalSeq` (R103 (1)). -/
  | illegalDispatchWord
  /-- A DRI code 9 to 15 (R103 (2)). -/
  | reservedCommandCode
  /-- A code with bits outside the width of its format (R100). -/
  | codeWiderThanFormat
  /-- Operands that are not those of the command (R108). -/
  | wrongOperands
  deriving DecidableEq, Repr

/-- The operation's format (30_encoding.md R107, second column). -/
def Instr.format : Instr → Format
  | .arm | .stop | .poll | .clrGood | .rdLen | .rdFrame | .xIdx | .rdTs | .accInit | .accL | .accF
  | .frDiag | .serOpen | .serWr | .count | .clrErr | .rxRst | .reDiag => .seq
  | .statusRd | .statusClr _ | .rxEnable _ | .rxReset | .flenRd | .frameRd _ | .tsRd _ | .accRd _ _
  | .diagRd => .dri
  | .fileOpen _ | .fileWrite _ _ => .snk
  | .start _ | .kill => .host

/-- The width in bits of a format's code (30_encoding.md R99, R100). -/
def Format.width : Format → Nat
  | .seq => 8
  | .dri => 4
  | .snk => 1
  | .host => 1

end Sys2Proof
end

