-- ==== Sys2Proof/WellFormed.lean ====
section
/-! DEFINITION. Well-formed instructions: the operand domains of 30_encoding.md R108 and of the
command rules, under a configuration. -/

namespace Sys2Proof

/-- The operand domains of the commands (30_encoding.md R108; 44_device_register_interface.md R202,
R206, R208; 42_record_serializer.md R172; 45_session_interface.md R220).  A sequencer operation has no
operands.  `RX_ENABLE` and `TS_RD` admit every value of their operand types. -/
def Instr.wellFormed (c : Config) : Instr → Bool
  | .statusClr mask => decide (mask < 2 ^ c.statusW)
  | .frameRd len => decide (len ≤ c.frameCap)
  | .accRd size _ => decide (1 ≤ size) && decide (size ≤ c.chunk)
  | .fileWrite _ bytes => decide (bytes.length = c.recordLen)
  | .start cfg => cfg.valid
  | .arm | .stop | .poll | .clrGood | .rdLen | .rdFrame | .xIdx | .rdTs | .accInit | .accL | .accF
  | .frDiag | .serOpen | .serWr | .count | .clrErr | .rxRst | .reDiag => true
  | .statusRd | .rxEnable _ | .rxReset | .flenRd | .tsRd _ | .diagRd => true
  | .fileOpen _ | .kill => true

end Sys2Proof
end

