-- ==== Sys2Proof/Decode.lean ====
section
/-! DEFINITION. The decoder, total on every encoded instruction and rejecting by name, and after it
the encoder (30_encoding.md R99 to R103, R107). -/

namespace Sys2Proof

/-- The 5-bit code of a sequencer state (10_state.md R21). -/
def Seq.code : Seq → BitVec 5
  | .idle => 0#5
  | .armed => 1#5
  | .frClr => 2#5
  | .frLen => 3#5
  | .frData => 4#5
  | .frIdx => 5#5
  | .frTs => 6#5
  | .frAcc0 => 7#5
  | .frAcc => 8#5
  | .frDiag => 9#5
  | .frOpen => 10#5
  | .frWrite => 11#5
  | .frCount => 12#5
  | .reClr => 13#5
  | .reRst => 14#5
  | .reDiag => 15#5
  | .done => 16#5
  | .halt => 17#5
  | .killed => 18#5
  | .reserved c => BitVec.ofNat 5 (19 + c.val)

/-- The sequencer state of a 5-bit code (10_state.md R21). -/
def Seq.ofCode (c : BitVec 5) : Seq :=
  match c.toNat with
  | 0 => .idle
  | 1 => .armed
  | 2 => .frClr
  | 3 => .frLen
  | 4 => .frData
  | 5 => .frIdx
  | 6 => .frTs
  | 7 => .frAcc0
  | 8 => .frAcc
  | 9 => .frDiag
  | 10 => .frOpen
  | 11 => .frWrite
  | 12 => .frCount
  | 13 => .reClr
  | 14 => .reRst
  | 15 => .reDiag
  | 16 => .done
  | 17 => .halt
  | 18 => .killed
  | k => .reserved (Fin.ofNat 13 (k - 19))

/-- The dispatch word `{seq, 00, cond}` (30_encoding.md R99): bits 7:3 the code, bits 2:1 zero, bit 0
the condition. -/
def dispatchCode (q : Seq) (cond : Bool) : BitVec 8 :=
  q.code ++ 0#2 ++ BitVec.ofBool cond

/-- The sequencer operation a dispatch word selects (30_encoding.md R101, R107); a word with bits 2:1
not zero, a reserved code, or `cond = 1` outside `IDLE` and `FR_ACC` selects none (R103 (1)), and neither
does a terminal code (R101; that `decode` names it as it names the others is log 21). -/
def decodeSeq (d : BitVec 8) : Option Instr :=
  if d.extractLsb' 1 2 ≠ 0#2 then none else
  match Seq.ofCode (d.extractLsb' 3 5), d.getLsbD 0 with
  | .idle, false => some .arm
  | .idle, true => some .stop
  | .armed, false => some .poll
  | .frClr, false => some .clrGood
  | .frLen, false => some .rdLen
  | .frData, false => some .rdFrame
  | .frIdx, false => some .xIdx
  | .frTs, false => some .rdTs
  | .frAcc0, false => some .accInit
  | .frAcc, false => some .accL
  | .frAcc, true => some .accF
  | .frDiag, false => some .frDiag
  | .frOpen, false => some .serOpen
  | .frWrite, false => some .serWr
  | .frCount, false => some .count
  | .reClr, false => some .clrErr
  | .reRst, false => some .rxRst
  | .reDiag, false => some .reDiag
  | _, _ => none

/-- The device command of a 4-bit code and its operands (30_encoding.md R107, R108). -/
def decodeDri (code : Nat) (ops : List Operand) : Except DecodeError Instr :=
  match code, ops with
  | 0, [] => .ok .statusRd
  | 1, [.mask m] => .ok (.statusClr m)
  | 2, [.mode m] => .ok (.rxEnable m)
  | 3, [] => .ok .rxReset
  | 4, [] => .ok .flenRd
  | 5, [.number len] => .ok (.frameRd len)
  | 6, [.variant v] => .ok (.tsRd v)
  | 7, [.number size, .number offset] => .ok (.accRd size offset)
  | 8, [] => .ok .diagRd
  | k, _ => if k ≤ 8 then .error .wrongOperands
            else if k ≤ 15 then .error .reservedCommandCode
            else .error .codeWiderThanFormat

/-- The store command of a 1-bit code and its operands (30_encoding.md R102, R107). -/
def decodeSnk (code : Nat) (ops : List Operand) : Except DecodeError Instr :=
  match code, ops with
  | 0, [.path p] => .ok (.fileOpen p)
  | 1, [.path p, .bytes b] => .ok (.fileWrite p b)
  | k, _ => if k ≤ 1 then .error .wrongOperands else .error .codeWiderThanFormat

/-- The host operation of a 1-bit code and its operands (30_encoding.md R102, R107). -/
def decodeHost (code : Nat) (ops : List Operand) : Except DecodeError Instr :=
  match code, ops with
  | 0, [.config c] => .ok (.start c)
  | 1, [] => .ok .kill
  | k, _ => if k ≤ 1 then .error .wrongOperands else .error .codeWiderThanFormat

/-- The decoder. -/
def decode (e : Encoded) : Except DecodeError Instr :=
  match e.format with
  | .seq =>
    match e.operands, decodeSeq e.code with
    | [], some i => .ok i
    | [], none => .error .illegalDispatchWord
    | _ :: _, _ => .error .wrongOperands
  | .dri => decodeDri e.code.toNat e.operands
  | .snk => decodeSnk e.code.toNat e.operands
  | .host => decodeHost e.code.toNat e.operands

/-- The encoded form of a sequencer operation selected from `q` under `cond` (30_encoding.md R107). -/
def seqWord (q : Seq) (cond : Bool) : Encoded := ⟨.seq, dispatchCode q cond, []⟩

/-- The encoder, from the table of 30_encoding.md R107. -/
def encode : Instr → Encoded
  | .arm => seqWord .idle false
  | .stop => seqWord .idle true
  | .poll => seqWord .armed false
  | .clrGood => seqWord .frClr false
  | .rdLen => seqWord .frLen false
  | .rdFrame => seqWord .frData false
  | .xIdx => seqWord .frIdx false
  | .rdTs => seqWord .frTs false
  | .accInit => seqWord .frAcc0 false
  | .accL => seqWord .frAcc false
  | .accF => seqWord .frAcc true
  | .frDiag => seqWord .frDiag false
  | .serOpen => seqWord .frOpen false
  | .serWr => seqWord .frWrite false
  | .count => seqWord .frCount false
  | .clrErr => seqWord .reClr false
  | .rxRst => seqWord .reRst false
  | .reDiag => seqWord .reDiag false
  | .statusRd => ⟨.dri, 0x0#8, []⟩
  | .statusClr m => ⟨.dri, 0x1#8, [.mask m]⟩
  | .rxEnable m => ⟨.dri, 0x2#8, [.mode m]⟩
  | .rxReset => ⟨.dri, 0x3#8, []⟩
  | .flenRd => ⟨.dri, 0x4#8, []⟩
  | .frameRd len => ⟨.dri, 0x5#8, [.number len]⟩
  | .tsRd v => ⟨.dri, 0x6#8, [.variant v]⟩
  | .accRd size offset => ⟨.dri, 0x7#8, [.number size, .number offset]⟩
  | .diagRd => ⟨.dri, 0x8#8, []⟩
  | .fileOpen p => ⟨.snk, 0x0#8, [.path p]⟩
  | .fileWrite p b => ⟨.snk, 0x1#8, [.path p, .bytes b]⟩
  | .start c => ⟨.host, 0x0#8, [.config c]⟩
  | .kill => ⟨.host, 0x1#8, []⟩

/-- Operands "of zeros" for a code of the table that is given without operand bits (log 14): mask 0,
mode `immediate`, number 0, variant `RX`, path token 0, no bytes, the configuration of reset. -/
def zeroOperands (f : Format) (code : Nat) : List Operand :=
  match f, code with
  | .dri, 1 => [.mask 0]
  | .dri, 2 => [.mode .immediate]
  | .dri, 5 => [.number 0]
  | .dri, 6 => [.variant .rx]
  | .dri, 7 => [.number 0, .number 0]
  | .snk, 0 => [.path 0]
  | .snk, 1 => [.path 0, .bytes []]
  | .host, 0 => [.config Config.atReset]
  | _, _ => []

/-- The formats whose code fits in `nbits` bits, in the order of the table. -/
def tableFormats (nbits : Nat) : List Format :=
  [Format.seq, .dri, .snk, .host].filter fun f => f.width ≤ nbits

/-- The instruction of the first row of the opcode table, in its order, that a word of `nbits` bits
matches (log 14: codes of different formats coincide, and a word alone does not name its format). -/
def decodeTableWord (nbits w : Nat) : Option Instr :=
  if 256 ≤ w then none else
  (tableFormats nbits).findSome? fun f =>
    match decode ⟨f, BitVec.ofNat 8 w, zeroOperands f w⟩ with
    | .ok i => some i
    | .error _ => none

end Sys2Proof
end

