-- ==== Sys2Proof/Machine/State.lean ====
section
/-! DEFINITION. The state of RXCAP as plain data (10_state.md R20), the faults and refusals a step can
end in, and the state after reset (10_state.md R45). -/

namespace Sys2Proof.Machine

open Sys2Proof

/-- The byte-addressed spaces RXCAP owns (20_memory.md R60).  The spaces ACC, RXF and DREG belong to
the device and are reached only through its commands; the space FILE is the field `files`. -/
inductive Space where
  | fb | cb | raw
  deriving DecidableEq, Repr

/-- A byte memory: cells of (address, byte), addresses strictly rising.  An address that is not listed
holds no value: nothing has written it since `START` (10_state.md R45; log 4). -/
abbrev Memory := List Host.Cell

/-- The output store: cells of (path, bytes), paths strictly rising.  "A path not in the map has no
file written in this session" (10_state.md R41). -/
abbrev FileStore := List (Path × List Byte)

/-- An answer of the device (44_device_register_interface.md R210).  The data of an `OK` answer is a
natural number from which each command reads the shape 30_encoding.md R108 gives it, so that an answer
of another length cannot be written down (log 5). -/
inductive DevAnswer where
  | fail
  | ok (data : Nat)
  deriving DecidableEq, Repr

/-- An answer of the output store (42_record_serializer.md R173, R174). -/
inductive SinkAnswer where
  | fail
  | ok
  deriving DecidableEq, Repr

/-- What a party answers once the listed answers are used up (log 5): nothing more ever (44_device_register_interface.md R211, U3),
one sequence of answers over and over, or free answers from number `k` on (10_state.md R42, U4). -/
inductive Tail (α : Type) where
  | never
  | cycle (first : α) (more : List α)
  | free (k : Nat)
  deriving DecidableEq, Repr

/-- The answers of a party still to come: those listed, the next one first, and what comes after
them.  `Answers.pop` takes the next one. -/
structure Answers (α : Type) where
  listed : List α
  after  : Tail α
  deriving DecidableEq, Repr

/-- One answered external transaction (00_scope.md R7). -/
inductive Transaction where
  | dev (cmd : DevCmd) (answer : DevAnswer)
  | sink (cmd : SinkCmd) (answer : SinkAnswer)
  deriving DecidableEq, Repr

/-- Whose turn a step is: RXCAP's own, or that of a word presented from outside (log 9). -/
inductive Turn where
  | core
  | present (e : Encoded)
  deriving DecidableEq, Repr

/-- The environment of RXCAP as plain data: the model's own fields, no state of RXCAP
(00_scope.md R7, 10_state.md R47; log 5, log 9, log 17). -/
structure Env where
  /-- Whose turn each coming step is; when the list is empty every turn is RXCAP's. -/
  turns       : List Turn
  /-- The device's answers still to come. -/
  devAnswers  : Answers DevAnswer
  /-- The output store's answers still to come. -/
  sinkAnswers : Answers SinkAnswer
  /-- The transactions answered so far, the oldest first. -/
  trace       : List Transaction
  deriving DecidableEq, Repr

/-- An entry of the output event list (10_state.md R40). -/
inductive Event where
  | noticeDone
  | logOpenFail (path : Path)
  | logWriteFail (path : Path)
  deriving DecidableEq, Repr

/-- `halt_cause` when it is not `none`: the pair (cause code, info) of 60_exceptions.md R231, whose
code is 6 for a failed device command and 7 for an illegal dispatch word (10_state.md R32). -/
inductive HaltCause where
  | deviceIoFatal (cmd : DevName)
  | illegalSeq (word : BitVec 8)
  deriving DecidableEq, Repr

/-- The whole state of RXCAP (10_state.md R20), the configuration record (R38) and the environment. -/
structure State where
  /-- The sequencer state register (R21). -/
  seq         : Seq
  /-- The reported frame length (R23). -/
  frameLen    : Nat
  /-- The frame index, a signed 32-bit pattern (R24). -/
  frameIndex  : BitVec 32
  /-- The RX timestamp (R25). -/
  rxTs        : BitVec 64
  /-- The last status value `POLL` read, a `STATUS_W`-bit value (R26; log 13). -/
  statusLatch : Nat
  /-- The Diagnostics Snapshot, `DIAG_W` bytes (R27). -/
  diag        : List Byte
  /-- The successful-frame counter (R28). -/
  frameCount  : Nat
  /-- The CIR bytes still to fetch (R29). -/
  remaining   : Nat
  /-- The offset of the next chunk (R30). -/
  cursor      : Nat
  /-- The file the serializer has open (R31). -/
  curPath     : Path
  /-- Why RXCAP halted (R32). -/
  haltCause   : Option HaltCause
  /-- The one flag (R33). -/
  captureOk   : Bool
  /-- `frame_buf`, space FB (R35). -/
  frameBuf    : Memory
  /-- `cir_buf`, space CB (R36). -/
  cirBuf      : Memory
  /-- `raw`, space RAW (R37). -/
  raw         : Memory
  /-- The output event list (R40). -/
  events      : List Event
  /-- The output file store (R41). -/
  files       : FileStore
  /-- The configuration record, written by `START` only (R38). -/
  cfg         : Config
  /-- Whether `START` has been given: "`START` is given once" (45_session_interface.md R220; log 11). -/
  started     : Bool
  /-- The environment (log 5, log 9, log 17). -/
  env         : Env
  deriving DecidableEq, Repr

/-- The faults of a step. -/
inductive Fault where
  /-- Raised by the fetch when `seq` is `HALT`: "In a model `HALT` is the fault outcome of a step"
  (60_exceptions.md R236).  The cause is `halt_cause`.  Safe: the hardware makes no step there. -/
  | halted (cause : Option HaltCause)
  /-- Raised by a memory access that is not inside its space, which 00_scope.md R6 leaves undefined.
  Safe: the model stops (log 19). -/
  | outsideSpace (space : Space) (address size : Nat)
  /-- Raised by a memory read of a byte nothing has written since `START`: "reading it before it is
  written is a fault of the model" (10_state.md R45, U8).  Safe: the model stops (log 4). -/
  | unwrittenByte (space : Space) (address size : Nat)
  deriving DecidableEq, Repr

/-- The refusals of a step. -/
inductive Refusal where
  /-- Raised by `exec` for an instruction without a meaning yet.  Safe. -/
  | notModelled (mnemonic : String)
  /-- Raised by the fetch when `seq` is `DONE` or `KILLED`: "no operation is selected and RXCAP makes no
  step" (30_encoding.md R101).  Safe (log 8). -/
  | sessionEnded
  /-- Raised by the fetch on RXCAP's turn before `START` has been given.  Safe (log 11). -/
  | notStarted
  /-- Raised by `START` when it has been given before: "outside this spec" (45_session_interface.md
  R220, U21).  Safe (log 11). -/
  | secondStart
  /-- Raised by `START` on a configuration that breaks a constraint of 00_scope.md R2 (U10, U11).  Safe. -/
  | configurationOutsideDomain
  /-- Raised by the fetch when a SEQ word is presented from outside: RXCAP forms its dispatch word
  itself (30_encoding.md R99).  Safe (log 9). -/
  | sequencerWordPresented
  /-- Raised when a presented command or host word does not decode: "reserved command codes ... never
  issued ... refuse" (30_encoding.md R103 (2), U12).  Safe. -/
  | undecodable (error : DecodeError)
  deriving DecidableEq, Repr

/-- The outcome of a step. -/
abbrev Out := Host.Outcome State Fault Refusal

/-- The state after `START(cfg)` (10_state.md R45, 45_session_interface.md R220).  The registers R45
calls unspecified hold zero (log 3, DESIGN CHOICE); no byte of a buffer has a value (log 4).  The trace
is that of the session that begins. -/
def State.afterStart (cfg : Config) (env : Env) : State where
  seq := .idle
  frameLen := 0
  frameIndex := 0
  rxTs := 0
  statusLatch := 0
  diag := List.replicate cfg.diagW 0
  frameCount := 0
  remaining := 0
  cursor := 0
  curPath := 0
  haltCause := none
  captureOk := false
  frameBuf := []
  cirBuf := []
  raw := []
  events := []
  files := []
  cfg := cfg
  started := true
  env := { env with trace := [] }

/-- RXCAP right after reset, which is the host operation `START` (70_reset_and_hazards.md R260), with
the configuration of log 1 and an environment in which nothing has been scripted: no answer comes. -/
def State.reset : State :=
  State.afterStart Config.atReset
    { turns := [], devAnswers := ⟨[], .never⟩, sinkAnswers := ⟨[], .never⟩, trace := [] }

end Sys2Proof.Machine
end

