-- ==== Sys2Proof/Machine/Ops.lean ====
section
/-! DEFINITION. The named operations over memory, registers and the environment: byte cells, memory
reads and writes, the device and store transactions, and the error conditions. -/

namespace Sys2Proof.Machine

open Sys2Proof

/-! ## Cells: a map from naturals as a list with rising keys -/

/-- The value at a key. -/
def readCell {α : Type} : List (Nat × α) → Nat → Option α
  | [], _ => none
  | (k, v) :: m, a => if k = a then some v else readCell m a

/-- The values at `n` keys from `a` on, when every one of them has a value. -/
def readCells {α : Type} (m : List (Nat × α)) (a : Nat) : Nat → Option (List α)
  | 0 => some []
  | n + 1 =>
    match readCell m a, readCells m (a + 1) n with
    | some v, some vs => some (v :: vs)
    | _, _ => none

/-- The values `vs` at the keys from `a` on, as cells. -/
def numberFrom {α : Type} (a : Nat) : List α → List (Nat × α)
  | [] => []
  | v :: vs => (a, v) :: numberFrom (a + 1) vs

/-- Store the values `vs` at the keys from `a` on and leave every other key alone. -/
def writeCells {α : Type} (m : List (Nat × α)) (a : Nat) (vs : List α) : List (Nat × α) :=
  m.filter (fun c => c.1 < a) ++ numberFrom a vs ++ m.filter (fun c => a + vs.length ≤ c.1)

/-- The canonical form: keys strictly rising.  (An unlisted address holds no value, so there is no
entry equal to what an unlisted address reads as.) -/
def cellsWf {α : Type} (m : List (Nat × α)) : Bool :=
  decide (m.Pairwise fun c d => c.1 < d.1)

/-- The canonical form of a memory of `size` bytes: addresses strictly rising and inside the space. -/
def Memory.wf (size : Nat) (m : Memory) : Bool :=
  cellsWf m && m.all fun c => decide (c.1 < size)

/-- Every byte of a memory of `size` bytes has a value. -/
def Memory.full (size : Nat) (m : Memory) : Bool :=
  (List.range size).all fun a => (readCell m a).isSome

/-! ## Memory accesses (00_scope.md R6, 20_memory.md R60, R66) -/

/-- The number of bytes of a space (20_memory.md R60). -/
def Space.size (c : Config) : Space → Nat
  | .fb => c.frameCap
  | .cb => c.cirLen
  | .raw => c.chunk + 1

/-- The contents of a space. -/
def State.space (s : State) : Space → Memory
  | .fb => s.frameBuf
  | .cb => s.cirBuf
  | .raw => s.raw

/-- The state with other contents of one space. -/
def State.setSpace (s : State) (sp : Space) (m : Memory) : State :=
  match sp with
  | .fb => { s with frameBuf := m }
  | .cb => { s with cirBuf := m }
  | .raw => { s with raw := m }

/-- One byte of a space: the model's read of one byte. -/
def State.peek (s : State) (sp : Space) (a : Nat) : Option Byte := readCell (s.space sp) a

/-- `MemRead(space, a, n)` (00_scope.md R6), handed on to `k`. -/
def memRead (sp : Space) (a n : Nat) (s : State) (k : List Byte → Out) : Out :=
  if a + n ≤ sp.size s.cfg then
    match readCells (s.space sp) a n with
    | some bytes => k bytes
    | none => .fault (.unwrittenByte sp a n)
  else .fault (.outsideSpace sp a n)

/-- `MemWrite(space, a, n, bytes)` with `n = len(bytes)` (00_scope.md R6), then `k`. -/
def memWrite (sp : Space) (a : Nat) (bytes : List Byte) (s : State) (k : State → Out) : Out :=
  if a + bytes.length ≤ sp.size s.cfg then k (s.setSpace sp (writeCells (s.space sp) a bytes))
  else .fault (.outsideSpace sp a bytes.length)

/-- `zeros(n)` (40_reception_state_machine.md R122). -/
def zeros (n : Nat) : List Byte := List.replicate n 0#8

/-- The zero-fill of `ARM`: all of FB and all of CB (40_reception_state_machine.md R122, D31). -/
def State.zeroFill (s : State) : State :=
  { s with
    frameBuf := writeCells s.frameBuf 0 (zeros s.cfg.frameCap)
    cirBuf := writeCells s.cirBuf 0 (zeros s.cfg.cirLen) }

/-! ## External transactions (00_scope.md R7) -/

/-- The name of a device command. -/
def devName : DevCmd → DevName
  | .statusRd => .statusRd
  | .statusClr _ => .statusClr
  | .rxEnable _ => .rxEnable
  | .rxReset => .rxReset
  | .flenRd => .flenRd
  | .frameRd _ => .frameRd
  | .tsRd _ => .tsRd
  | .accRd _ _ => .accRd
  | .diagRd => .diagRd

/-- The next answer, and the answers to come after it (log 5). -/
def Answers.pop {α : Type} (free : Nat → α) : Answers α → Option (α × Answers α)
  | ⟨a :: rest, after⟩ => some (a, ⟨rest, after⟩)
  | ⟨[], .never⟩ => none
  | ⟨[], .cycle a more⟩ => some (a, ⟨more, .cycle a more⟩)
  | ⟨[], .free k⟩ => some (free k, ⟨[], .free (k + 1)⟩)

/-- The next `n` answers, or all of them where fewer come. -/
def Answers.take {α : Type} (free : Nat → α) : Nat → Answers α → List α
  | 0, _ => []
  | n + 1, as =>
    match as.pop free with
    | none => []
    | some (a, rest) => a :: rest.take free n

/-- The answers to come after the next `n`. -/
def Answers.drop {α : Type} (free : Nat → α) : Nat → Answers α → Answers α
  | 0, as => as
  | n + 1, as =>
    match as.pop free with
    | none => as
    | some (_, rest) => rest.drop free n

/-- The free answer of the device with a number (log 5). -/
def freeDev (k : Nat) : DevAnswer :=
  match Config.freeDevAnswer k with
  | none => .fail
  | some d => .ok d

/-- The free answer of the output store with a number (log 5). -/
def freeSink (k : Nat) : SinkAnswer := if Config.freeSinkAnswer k then .ok else .fail

/-- The device's next answer, if it ever comes. -/
def Env.nextDev (e : Env) : Option (DevAnswer × Answers DevAnswer) := e.devAnswers.pop freeDev

/-- The output store's next answer, if it ever comes. -/
def Env.nextSink (e : Env) : Option (SinkAnswer × Answers SinkAnswer) := e.sinkAnswers.pop freeSink

/-- The state once the device has answered `a` to `c`, with the answers `rest` still to come. -/
def State.devAnswered (s : State) (c : DevCmd) (a : DevAnswer) (rest : Answers DevAnswer) : State :=
  { s with env := { s.env with devAnswers := rest, trace := s.env.trace ++ [.dev c a] } }

/-- What an answered store command does to the store (42_record_serializer.md R173, R174,
20_memory.md R72): an `OK` open leaves the file empty, an `OK` write leaves it holding the bytes, and
a `FAIL` answer leaves it as it was. -/
def storeEffect (c : SinkCmd) (a : SinkAnswer) (fs : FileStore) : FileStore :=
  match a, c with
  | .fail, _ => fs
  | .ok, .fileOpen p => writeCells fs p [[]]
  | .ok, .fileWrite p b => writeCells fs p [b]

/-- The state once the store has answered `a` to `c`, with the answers `rest` still to come. -/
def State.sinkAnswered (s : State) (c : SinkCmd) (a : SinkAnswer) (rest : Answers SinkAnswer) : State :=
  { s with
    files := storeEffect c a s.files
    env := { s.env with sinkAnswers := rest, trace := s.env.trace ++ [.sink c a] } }

/-- `Dev(cmd, operands)` (00_scope.md R7): the next answer decides between `onFail` and `onOk`; when
no answer comes the state does not change (44_device_register_interface.md R211; log 6). -/
def withDev (c : DevCmd) (s : State) (onFail : State → Out) (onOk : Nat → State → Out) : Out :=
  match s.env.nextDev with
  | none => .next s
  | some (.fail, rest) => onFail (s.devAnswered c .fail rest)
  | some (.ok d, rest) => onOk d (s.devAnswered c (.ok d) rest)

/-- `Sink(cmd, operands)` (00_scope.md R7), in the same form. -/
def withSink (c : SinkCmd) (s : State) (onFail onOk : State → Out) : Out :=
  match s.env.nextSink with
  | none => .next s
  | some (.fail, rest) => onFail (s.sinkAnswered c .fail rest)
  | some (.ok, rest) => onOk (s.sinkAnswered c .ok rest)

/-- A device command by itself: it is issued, answered and recorded, and RXCAP's registers are those of
the operation that issues it (44_device_register_interface.md R200). -/
def devCommand (c : DevCmd) (s : State) : Out :=
  withDev c s (fun t => .next t) (fun _ t => .next t)

/-- A store command by itself. -/
def sinkCommand (c : SinkCmd) (s : State) : Out :=
  withSink c s (fun t => .next t) (fun t => .next t)

/-! ## Error conditions (60_exceptions.md R230, R231) -/

/-- The seven conditions of 60_exceptions.md R231, with the info the detecting rule gives `raise`. -/
inductive Condition where
  | oversizedFrame (len : Nat)
  | rxError (bits : Nat)
  | chunkReadFailure (offset : Nat)
  | fileOpenFailure (path : Path)
  | fileWriteFailure (path : Path)
  | deviceIoFatal (cmd : DevName)
  | illegalSeq (word : BitVec 8)
  deriving DecidableEq, Repr

/-- The cause codes of 60_exceptions.md R231. -/
def conditionCode : Condition → Nat
  | .oversizedFrame _ => 1
  | .rxError _ => 2
  | .chunkReadFailure _ => 3
  | .fileOpenFailure _ => 4
  | .fileWriteFailure _ => 5
  | .deviceIoFatal _ => 6
  | .illegalSeq _ => 7

/-- The cause code that `halt_cause` holds (10_state.md R32). -/
def haltCode : HaltCause → Nat
  | .deviceIoFatal c => conditionCode (.deviceIoFatal c)
  | .illegalSeq w => conditionCode (.illegalSeq w)

/-- What a condition writes and where `seq` goes: the one description of taking an error condition
(60_exceptions.md R231, R241; the detecting rules R123, R125, R152, R153, R171, R172, R236, R103).
Nothing is saved and there is no return operation (R241, R242): a recoverable condition ends its cycle
by the operations that follow. -/
def raise (c : Condition) (s : State) : State :=
  match c with
  | .oversizedFrame _ => { s with seq := .frDiag }
  | .rxError _ => { s with seq := .reClr }
  | .chunkReadFailure _ => { s with captureOk := false, seq := .frDiag }
  | .fileOpenFailure p => { s with events := s.events ++ [.logOpenFail p], seq := .idle }
  | .fileWriteFailure p => { s with events := s.events ++ [.logWriteFail p], seq := .idle }
  | .deviceIoFatal cmd => { s with haltCause := some (.deviceIoFatal cmd), seq := .halt }
  | .illegalSeq w => { s with haltCause := some (.illegalSeq w), seq := .halt }

/-- A device command whose `FAIL` is the hard stop (60_exceptions.md R236): every one but `ACC_RD`. -/
def withDevOrHalt (c : DevCmd) (s : State) (onOk : Nat → State → Out) : Out :=
  withDev c s (fun t => .next (raise (.deviceIoFatal (devName c)) t)) onOk

/-- `START`'s precondition on its configuration (45_session_interface.md R220). -/
def configurationAdmitted (c : Config) : Bool := c.valid

end Sys2Proof.Machine
end

