-- ==== Sys2Proof/Machine/Operands.lean ====
section
/-! DEFINITION. How every multi-byte operand is assembled or produced (30_encoding.md R97), the record
functions (R98) and the sample view of the CIR buffer (20_memory.md R65). -/

namespace Sys2Proof.Machine

open Sys2Proof

/-! ## Byte sequences as numbers (00_scope.md R4) -/

/-- `le_n(B)`: least significant byte first. -/
def leNat : List Byte → Nat
  | [] => 0
  | b :: bs => b.toNat + 256 * leNat bs

/-- `be_n(B)`: most significant byte first. -/
def beNat (b : List Byte) : Nat := leNat b.reverse

/-- `native_n(B)`. -/
def nativeNat (o : ByteOrder) (b : List Byte) : Nat :=
  match o with
  | .little => leNat b
  | .big => beNat b

/-- `bytes_le_n(v)`: the `n` bytes of `v`, least significant first; `v` is taken modulo `256^n`. -/
def bytesLE : Nat → Nat → List Byte
  | 0, _ => []
  | n + 1, v => BitVec.ofNat 8 v :: bytesLE n (v / 256)

/-- `bytes_be_n(v)`. -/
def bytesBE (n v : Nat) : List Byte := (bytesLE n v).reverse

/-- `bytes_native_n(v)`. -/
def bytesNative (o : ByteOrder) (n v : Nat) : List Byte :=
  match o with
  | .little => bytesLE n v
  | .big => bytesBE n v

/-! ## The data of a device answer (30_encoding.md R108; log 5) -/

/-- The answer that carries the bytes `b`. -/
def DevAnswer.okBytes (b : List Byte) : DevAnswer := .ok (leNat b)

/-- The status value an answer carries: `STATUS_W` bits (R201). -/
def answerStatus (c : Config) (d : Nat) : Nat := d % 2 ^ c.statusW

/-- The natural number an answer carries (R205). -/
def answerNumber (d : Nat) : Nat := d

/-- The `n` bytes an answer carries (R206 to R209). -/
def answerBytes (n d : Nat) : List Byte := bytesLE n d

/-! ## Timestamps and frame index -/

/-- `TS40(b)` (43_timestamp_extraction.md R190): from the last byte down to the first, shift the
64-bit accumulator left by 8 and OR the byte in. -/
def ts40 (b : List Byte) : BitVec 64 :=
  b.foldr (fun byte acc => (acc <<< 8) ||| byte.setWidth 64) 0#64

/-- `frame_index` from the four bytes of format FIDX (30_encoding.md R95, R97 (2)): their 32-bit
pattern in `NATIVE` order, read as signed by `toInt`. -/
def frameIndexOf (c : Config) (b : List Byte) : BitVec 32 :=
  BitVec.ofNat 32 (nativeNat c.native b)

/-- The path a list of points gives a point, if it is listed: the first entry counts. -/
def lookupPath : List PathEntry → String → BitVec 32 → Option Path
  | [], _, _ => none
  | e :: es, expId, index =>
    if e.expId = expId ∧ e.index = index then some e.path else lookupPath es expId index

/-- `path_of` at a point (42_record_serializer.md R175; log 2): the listed path, or the free one. -/
def pathAt (f : PathFunction) (expId : String) (index : BitVec 32) : Path :=
  (lookupPath f.listed expId index).getD (Config.freePath f.rest expId index)

/-- The path of `FILE_OPEN`: `path_of(EXP_ID, frame_index)` with the record's own `path_of`
(30_encoding.md R97 (6)). -/
def pathOfFrame (c : Config) (index : BitVec 32) : Path := pathAt c.pathOf c.expId index

/-- The `offset` operand of `ACC_RD` (30_encoding.md R97 (3)). -/
def accOffset (c : Config) (cursor : Nat) : Nat := c.accBase + cursor

/-! ## The capture record (30_encoding.md R91, R98) -/

/-- `REC(i, t, C)`. -/
def record (o : ByteOrder) (index : BitVec 32) (ts : BitVec 64) (cir : List Byte) : List Byte :=
  bytesNative o 4 index.toNat ++ bytesNative o 8 ts.toNat ++ cir

/-- `PARSE(F)`. -/
def parse (o : ByteOrder) (f : List Byte) : BitVec 32 × BitVec 64 × List Byte :=
  (BitVec.ofNat 32 (nativeNat o (f.take 4)),
   BitVec.ofNat 64 (nativeNat o ((f.drop 4).take 8)),
   f.drop 12)

/-- The real field of sample `k` of a CIR byte sequence (20_memory.md R65, 30_encoding.md R93). -/
def sampleReal (o : ByteOrder) (cir : List Byte) (k : Nat) : Int :=
  (BitVec.ofNat 16 (nativeNat o ((cir.drop (4 * k)).take 2))).toInt

/-- The imaginary field of sample `k` (20_memory.md R65, 30_encoding.md R93). -/
def sampleImag (o : ByteOrder) (cir : List Byte) (k : Nat) : Int :=
  (BitVec.ofNat 16 (nativeNat o ((cir.drop (4 * k + 2)).take 2))).toInt

end Sys2Proof.Machine
end

