-- ==== Sys2Proof/Machine/Flags.lean ====
section
/-! DEFINITION. The computed conditions (10_state.md R34), the condition bit of the dispatch word
(30_encoding.md R99) and the macro state (10_state.md R22).  The one stored flag, `capture_ok`, is a
field of State (R33). -/

namespace Sys2Proof.Machine

open Sys2Proof

/-- `bound_reached` (10_state.md R34). -/
def boundReached (s : State) : Bool :=
  match s.cfg.maxFrames with
  | some m => decide (m ≤ s.frameCount)
  | none => false

/-- `more_chunks` (10_state.md R34). -/
def moreChunks (s : State) : Bool := decide (s.cfg.chunk < s.remaining)

/-- `good(s)` (10_state.md R34, 30_encoding.md R96). -/
def good (c : Config) (status : Nat) : Bool := decide (status &&& c.goodMask ≠ 0)

/-- `err(s)` (10_state.md R34, 30_encoding.md R96). -/
def err (c : Config) (status : Nat) : Bool := decide (status &&& c.errMask ≠ 0)

/-- The condition bit (30_encoding.md R99): `bound_reached` in `IDLE`, `more_chunks` in `FR_ACC`, 0 in
every other state. -/
def condBit (s : State) : Bool :=
  match s.seq with
  | .idle => boundReached s
  | .frAcc => moreChunks s
  | _ => false

/-- The dispatch word of a state (30_encoding.md R99). -/
def dispatchWord (s : State) : BitVec 8 := dispatchCode s.seq (condBit s)

/-- The macro state of a sequencer state (10_state.md R22); the terminal values have none. -/
def macroState : Seq → Option MacroState
  | .idle => some .idle
  | .armed => some .armed
  | .frClr | .frLen | .frData | .frIdx | .frTs | .frAcc0 | .frAcc | .frDiag | .frOpen | .frWrite
  | .frCount => some .frameReady
  | .reClr | .reRst | .reDiag => some .rxError
  | .done | .halt | .killed | .reserved _ => none

end Sys2Proof.Machine
end

