-- ==== Sys2Proof/Machine/ChunkReader.lean ====
section
/-! DEFINITION. The Accumulator Chunk Reader (41_accumulator_chunk_reader.md): its three operations and
its contract as one function over a sequence of device answers (R150). -/

namespace Sys2Proof.Machine

open Sys2Proof

/-- `ACCINIT` (41_accumulator_chunk_reader.md R151). -/
def execAccInit (s : State) : Out :=
  .next { s with remaining := s.cfg.cirLen, cursor := 0, seq := .frAcc }

/-- One chunk read of `n` meaningful bytes at `cursor` (41_accumulator_chunk_reader.md R152, R153): the
answer goes to `raw`, whose bytes 1 to n go to `cir_buf`; byte 0, the artifact, goes nowhere. -/
def readChunk (n : Nat) (s : State) (k : State → Out) : Out :=
  withDev (.accRd n (accOffset s.cfg s.cursor)) s
    (fun t => .next (raise (.chunkReadFailure t.cursor) t))
    fun d t =>
      memWrite .raw 0 (answerBytes (n + 1) d) t fun u =>
        memRead .raw 1 n u fun bytes => memWrite .cb u.cursor bytes u k

/-- `ACCF` (41_accumulator_chunk_reader.md R152). -/
def execAccF (s : State) : Out :=
  readChunk s.cfg.chunk s fun u =>
    .next { u with cursor := u.cursor + u.cfg.chunk, remaining := u.remaining - u.cfg.chunk, seq := .frAcc }

/-- `ACCL` (41_accumulator_chunk_reader.md R153). -/
def execAccL (s : State) : Out :=
  readChunk s.remaining s fun u =>
    .next { u with cursor := u.cursor + u.remaining, remaining := 0, seq := .frDiag }

/-! ## `ACC_READ` (41_accumulator_chunk_reader.md R150) -/

/-- How a run of `ACC_READ` ends: with every byte, by a failed read, or by a read that gets no answer. -/
inductive AccResult where
  | complete
  | failed
  | unanswered
  deriving DecidableEq, Repr

/-- A run of `ACC_READ`: the reads issued as (size, offset), the bytes delivered, and the end. -/
structure AccRun where
  reads  : List (Nat × Nat)
  bytes  : List Byte
  result : AccResult
  deriving DecidableEq, Repr

/-- A run with one answered read before it. -/
def AccRun.after (read : Nat × Nat) (bytes : List Byte) (r : AccRun) : AccRun :=
  { r with reads := read :: r.reads, bytes := bytes ++ r.bytes }

/-- The loop of `ACC_READ` on the device's answers, with `remaining` bytes to fetch from `cursor` on. -/
def accReadLoop (chunk base : Nat) : List DevAnswer → Nat → Nat → AccRun
  | [], _, _ => ⟨[], [], .unanswered⟩
  | .fail :: _, remaining, cursor => ⟨[(min chunk remaining, base + cursor)], [], .failed⟩
  | .ok d :: rest, remaining, cursor =>
    if chunk < remaining then
      (accReadLoop chunk base rest (remaining - chunk) (cursor + chunk)).after
        (chunk, base + cursor) ((answerBytes (chunk + 1) d).drop 1)
    else ⟨[(remaining, base + cursor)], (answerBytes (remaining + 1) d).drop 1, .complete⟩

/-- `ACC_READ(L, CHUNK, ACC_BASE)` on a sequence of device answers (R150). -/
def accRead (len chunk base : Nat) (answers : List DevAnswer) : AccRun :=
  accReadLoop chunk base answers len 0

end Sys2Proof.Machine
end

