-- ==== Sys2Proof/Machine/Commands.lean ====
section
/-! DEFINITION. The nine device commands (44_device_register_interface.md) and the two store commands
(42_record_serializer.md R173, R174) as instructions of their own: the command is issued, answered and
recorded; what RXCAP does with the answer is the meaning of the operation that issues it. -/

namespace Sys2Proof.Machine

open Sys2Proof

/-- `STATUS_RD` (44_device_register_interface.md R201). -/
def execStatusRd (s : State) : Out := devCommand .statusRd s

/-- `STATUS_CLR(mask)` (44_device_register_interface.md R202). -/
def execStatusClr (mask : Nat) (s : State) : Out := devCommand (.statusClr mask) s

/-- `RX_ENABLE(mode)` (44_device_register_interface.md R203). -/
def execRxEnable (mode : RxMode) (s : State) : Out := devCommand (.rxEnable mode) s

/-- `RX_RESET` (44_device_register_interface.md R204). -/
def execRxReset (s : State) : Out := devCommand .rxReset s

/-- `FLEN_RD` (44_device_register_interface.md R205). -/
def execFlenRd (s : State) : Out := devCommand .flenRd s

/-- `FRAME_RD(len)` (44_device_register_interface.md R206). -/
def execFrameRd (len : Nat) (s : State) : Out := devCommand (.frameRd len) s

/-- `TS_RD(variant)` (44_device_register_interface.md R207). -/
def execTsRd (variant : TsVariant) (s : State) : Out := devCommand (.tsRd variant) s

/-- `ACC_RD(size, offset)` (44_device_register_interface.md R208). -/
def execAccRd (size offset : Nat) (s : State) : Out := devCommand (.accRd size offset) s

/-- `DIAG_RD` (44_device_register_interface.md R209). -/
def execDiagRd (s : State) : Out := devCommand .diagRd s

/-- `FILE_OPEN(path)` (42_record_serializer.md R173). -/
def execFileOpen (path : Path) (s : State) : Out := sinkCommand (.fileOpen path) s

/-- `FILE_WRITE(path, bytes)` (42_record_serializer.md R174). -/
def execFileWrite (path : Path) (bytes : List Byte) (s : State) : Out :=
  sinkCommand (.fileWrite path bytes) s

end Sys2Proof.Machine
end

