-- ==== Sys2Proof/Machine/Reception.lean ====
section
/-! DEFINITION. The operations of the Reception State Machine (40_reception_state_machine.md) and of
the timestamp extraction (43_timestamp_extraction.md). -/

namespace Sys2Proof.Machine

open Sys2Proof

/-- `STOP` (40_reception_state_machine.md R121). -/
def execStop (s : State) : Out :=
  .next { s with events := s.events ++ [.noticeDone], seq := .done }

/-- `ARM` (40_reception_state_machine.md R122): the zero-fill is done also when the command fails. -/
def execArm (s : State) : Out :=
  withDev (.rxEnable .immediate) s
    (fun t => .next (raise (.deviceIoFatal .rxEnable) { t.zeroFill with captureOk := false }))
    (fun _ t => .next { t.zeroFill with captureOk := false, seq := .armed })

/-- `POLL` (40_reception_state_machine.md R123): the good bit is tested first (D5). -/
def execPoll (s : State) : Out :=
  withDevOrHalt .statusRd s fun d t =>
    let v := answerStatus t.cfg d
    let u := { t with statusLatch := v }
    if good t.cfg v then .next { u with seq := .frClr }
    else if err t.cfg v then .next (raise (.rxError (v &&& t.cfg.errMask)) u)
    else .next { u with seq := .armed }

/-- `CLRGOOD` (40_reception_state_machine.md R124). -/
def execClrGood (s : State) : Out :=
  withDevOrHalt (.statusClr s.cfg.goodMask) s fun _ t => .next { t with seq := .frLen }

/-- `RDLEN` (40_reception_state_machine.md R125). -/
def execRdLen (s : State) : Out :=
  withDevOrHalt .flenRd s fun d t =>
    let u := { t with frameLen := answerNumber d }
    if u.frameLen ≤ u.cfg.frameCap then .next { u with captureOk := true, seq := .frData }
    else .next (raise (.oversizedFrame u.frameLen) u)

/-- `RDFRAME` (40_reception_state_machine.md R126). -/
def execRdFrame (s : State) : Out :=
  withDevOrHalt (.frameRd s.frameLen) s fun d t =>
    memWrite .fb 0 (answerBytes t.frameLen d) t fun u => .next { u with seq := .frIdx }

/-- `XIDX` (40_reception_state_machine.md R127). -/
def execXIdx (s : State) : Out :=
  memRead .fb s.cfg.idxOff 4 s fun b =>
    .next { s with frameIndex := frameIndexOf s.cfg b, seq := .frTs }

/-- `RDTS` (43_timestamp_extraction.md R191). -/
def execRdTs (s : State) : Out :=
  withDevOrHalt (.tsRd .rx) s fun d t =>
    .next { t with rxTs := ts40 (answerBytes 5 d), seq := .frAcc0 }

/-- `FRDIAG` (40_reception_state_machine.md R128). -/
def execFrDiag (s : State) : Out :=
  withDevOrHalt .diagRd s fun d t =>
    let u := { t with diag := answerBytes t.cfg.diagW d }
    if u.captureOk then .next { u with seq := .frOpen } else .next { u with seq := .idle }

/-- `COUNT` (40_reception_state_machine.md R129). -/
def execCount (s : State) : Out :=
  .next { s with frameCount := s.frameCount + 1, seq := .idle }

/-- `CLRERR` (40_reception_state_machine.md R130). -/
def execClrErr (s : State) : Out :=
  withDevOrHalt (.statusClr s.cfg.errMask) s fun _ t => .next { t with seq := .reRst }

/-- `RXRST` (40_reception_state_machine.md R131). -/
def execRxRst (s : State) : Out :=
  withDevOrHalt .rxReset s fun _ t => .next { t with seq := .reDiag }

/-- `REDIAG` (40_reception_state_machine.md R132). -/
def execReDiag (s : State) : Out :=
  withDevOrHalt .diagRd s fun d t =>
    .next { t with diag := answerBytes t.cfg.diagW d, seq := .idle }

end Sys2Proof.Machine
end

