-- ==== Sys2Proof/Machine/Serializer.lean ====
section
/-! DEFINITION. The Record Serializer (42_record_serializer.md). -/

namespace Sys2Proof.Machine

open Sys2Proof

/-- `SEROPEN` (42_record_serializer.md R171). -/
def execSerOpen (s : State) : Out :=
  let p := pathOfFrame s.cfg s.frameIndex
  withSink (.fileOpen p) s
    (fun t => .next (raise (.fileOpenFailure p) t))
    (fun t => .next { t with curPath := p, seq := .frWrite })

/-- `SERWR` (42_record_serializer.md R172). -/
def execSerWr (s : State) : Out :=
  memRead .cb 0 s.cfg.cirLen s fun cir =>
    withSink (.fileWrite s.curPath (record s.cfg.native s.frameIndex s.rxTs cir)) s
      (fun t => .next (raise (.fileWriteFailure t.curPath) t))
      (fun t => .next { t with seq := .frCount })

end Sys2Proof.Machine
end

