-- ==== Sys2Proof/Machine/Session.lean ====
section
/-! DEFINITION. The host operations (45_session_interface.md). -/

namespace Sys2Proof.Machine

open Sys2Proof

/-- `START(cfg)` (45_session_interface.md R220), given once (U21; log 11). -/
def execStart (cfg : Config) (s : State) : Out :=
  if s.started then .refused .secondStart
  else if configurationAdmitted cfg then .next (State.afterStart cfg s.env)
  else .refused .configurationOutsideDomain

/-- `KILL` (45_session_interface.md R221): in a terminal state it is not allowed and changes nothing
(V123 of 95_test_vectors.md; log 12). -/
def execKill (s : State) : Out :=
  match s.seq with
  | .done | .halt | .killed => .next s
  | _ => .next { s with seq := .killed }

end Sys2Proof.Machine
end

