-- ==== Sys2Proof/Machine/Dispatch.lean ====
section
/-! DEFINITION. The dispatch: one arm per instruction, each one call of its meaning. -/

namespace Sys2Proof.Machine

open Sys2Proof

def exec (i : Instr) (s : State) : Host.Outcome State Fault Refusal :=
  match i with
  | .arm => Sys2Proof.Machine.execArm s
  | .stop => Sys2Proof.Machine.execStop s
  | .poll => Sys2Proof.Machine.execPoll s
  | .clrGood => Sys2Proof.Machine.execClrGood s
  | .rdLen => Sys2Proof.Machine.execRdLen s
  | .rdFrame => Sys2Proof.Machine.execRdFrame s
  | .xIdx => Sys2Proof.Machine.execXIdx s
  | .rdTs => Sys2Proof.Machine.execRdTs s
  | .accInit => Sys2Proof.Machine.execAccInit s
  | .accL => Sys2Proof.Machine.execAccL s
  | .accF => Sys2Proof.Machine.execAccF s
  | .frDiag => Sys2Proof.Machine.execFrDiag s
  | .serOpen => Sys2Proof.Machine.execSerOpen s
  | .serWr => Sys2Proof.Machine.execSerWr s
  | .count => Sys2Proof.Machine.execCount s
  | .clrErr => Sys2Proof.Machine.execClrErr s
  | .rxRst => Sys2Proof.Machine.execRxRst s
  | .reDiag => Sys2Proof.Machine.execReDiag s
  | .statusRd => Sys2Proof.Machine.execStatusRd s
  | .statusClr mask => Sys2Proof.Machine.execStatusClr mask s
  | .rxEnable mode => Sys2Proof.Machine.execRxEnable mode s
  | .rxReset => Sys2Proof.Machine.execRxReset s
  | .flenRd => Sys2Proof.Machine.execFlenRd s
  | .frameRd len => Sys2Proof.Machine.execFrameRd len s
  | .tsRd variant => Sys2Proof.Machine.execTsRd variant s
  | .accRd size offset => Sys2Proof.Machine.execAccRd size offset s
  | .diagRd => Sys2Proof.Machine.execDiagRd s
  | .fileOpen path => Sys2Proof.Machine.execFileOpen path s
  | .fileWrite path bytes => Sys2Proof.Machine.execFileWrite path bytes s
  | .start cfg => Sys2Proof.Machine.execStart cfg s
  | .kill => Sys2Proof.Machine.execKill s

end Sys2Proof.Machine
end

