-- ==== Sys2Proof/Machine/Fetch.lean ====
section
/-! DEFINITION. Where the next instruction comes from: RXCAP's own dispatch word (30_encoding.md R99,
R101) or a word presented from outside; what an undecodable word does (R103); and how an instruction is
put where the next step takes it from. -/

namespace Sys2Proof.Machine

open Sys2Proof

/-- What the fetch gives: an encoded instruction and the state to run it in, or the end of the run. -/
inductive Fetched where
  | word (e : Encoded) (s : State)
  | stop (o : Out)

/-- The state with other turns to come. -/
def State.withTurns (s : State) (ts : List Turn) : State :=
  { s with env := { s.env with turns := ts } }

/-- RXCAP's own turn (30_encoding.md R101): a terminal state selects no operation; `HALT` is the fault
outcome (60_exceptions.md R236; log 7, log 8). -/
def fetchCore (s : State) : Fetched :=
  if s.started then
    match s.seq with
    | .halt => .stop (.fault (.halted s.haltCause))
    | .done | .killed => .stop (.refused .sessionEnded)
    | _ => .word ⟨.seq, dispatchWord s, []⟩ s
  else .stop (.refused .notStarted)

/-- The next instruction (log 9): the turn is used up.  The spec knows no presented commands, so when a
presented word may run is the model's choice (DESIGN CHOICE, log 9): a device, store or host word runs on
its turn whatever `seq` is, in `HALT`, `DONE` and `KILLED` and before `START` as well, consumes an answer
there, and a presented `FILE_OPEN` or `FILE_WRITE` changes its file there.  What RXCAP itself does in
those states is `fetchCore`. -/
def fetch (s : State) : Fetched :=
  match s.env.turns with
  | [] => fetchCore s
  | .core :: ts => fetchCore (s.withTurns ts)
  | .present e :: ts =>
    match e.format with
    | .seq => .stop (.refused .sequencerWordPresented)
    | _ => .word e (s.withTurns ts)

/-- A word that does not decode: an illegal dispatch word is the condition `IllegalSeq`
(30_encoding.md R103 (1), 60_exceptions.md R238); a reserved command is refused (R103 (2), U12). -/
def undecodable (e : Encoded) (error : DecodeError) (s : State) : Out :=
  match e.format with
  | .seq => .next (raise (.illegalSeq e.code) s)
  | _ => .refused (.undecodable error)

/-! ## Placing an instruction (log 15) -/

/-- The sequencer state and, where it matters, the condition and the operands that make RXCAP's next
operation `i`. -/
def State.selecting (i : Instr) (s : State) : State :=
  match i with
  | .arm => { s with
      seq := .idle
      cfg := if boundReached s then { s.cfg with maxFrames := none } else s.cfg }
  | .stop => { s with
      seq := .idle
      cfg := if boundReached s then s.cfg else { s.cfg with maxFrames := some s.frameCount } }
  | .poll => { s with seq := .armed }
  | .clrGood => { s with seq := .frClr }
  | .rdLen => { s with seq := .frLen }
  | .rdFrame => { s with seq := .frData }
  | .xIdx => { s with
      seq := .frIdx
      frameBuf :=
        if Memory.full s.cfg.frameCap s.frameBuf then s.frameBuf
        else numberFrom 0 (zeros s.cfg.frameCap) }
  | .rdTs => { s with seq := .frTs }
  | .accInit => { s with seq := .frAcc0 }
  | .accL =>
    if 1 ≤ s.remaining ∧ s.remaining ≤ s.cfg.chunk then { s with seq := .frAcc }
    else { s with
      seq := .frAcc
      remaining := min s.cfg.chunk s.cfg.cirLen
      cursor := s.cfg.cirLen - min s.cfg.chunk s.cfg.cirLen }
  | .accF =>
    if moreChunks s then { s with seq := .frAcc }
    else { s with
      seq := .frAcc
      remaining := max s.cfg.cirLen (s.cfg.chunk + 1)
      cursor := 0 }
  | .frDiag => { s with seq := .frDiag }
  | .serOpen => { s with seq := .frOpen }
  | .serWr => { s with
      seq := .frWrite
      cirBuf :=
        if Memory.full s.cfg.cirLen s.cirBuf then s.cirBuf
        else numberFrom 0 (zeros s.cfg.cirLen) }
  | .count => { s with seq := .frCount }
  | .clrErr => { s with seq := .reClr }
  | .rxRst => { s with seq := .reRst }
  | .reDiag => { s with seq := .reDiag }
  | .start _ => { s with started := false }
  | .statusRd | .statusClr _ | .rxEnable _ | .rxReset | .flenRd | .frameRd _ | .tsRd _ | .accRd _ _
  | .diagRd | .fileOpen _ | .fileWrite _ _ | .kill => s

/-- The turn that runs `i` next: RXCAP's own for a sequencer operation, a presented word otherwise. -/
def turnFor (i : Instr) : Turn :=
  match i.format with
  | .seq => .core
  | _ => .present (encode i)

/-- The environment with an answer of the device and one of the store at hand, if none was: an
operation that gets no answer only waits. -/
def Env.answering (e : Env) : Env :=
  { e with
    devAnswers := if e.nextDev.isNone then ⟨[.ok 0], .never⟩ else e.devAnswers
    sinkAnswers := if e.nextSink.isNone then ⟨[.ok], .never⟩ else e.sinkAnswers }

/-- The state whose next step runs exactly `i` (log 15). -/
def State.placing (i : Instr) (s : State) : State :=
  let t := { s with started := true }.selecting i
  { t with env := { t.env.answering with turns := turnFor i :: t.env.turns } }

end Sys2Proof.Machine
end

