-- ==== Sys2Proof/Machine/Step.lean ====
section
/-! DEFINITION. One step of RXCAP (00_scope.md R9): fetch, decode, run. -/

namespace Sys2Proof.Machine

open Sys2Proof

/-- One step: the operation the fetched word selects, or the end the fetch found. -/
def step (s : State) : Host.Outcome State Fault Refusal :=
  match fetch s with
  | .stop o => o
  | .word e t =>
    match decode e with
    | .ok i => exec i t
    | .error error => undecodable e error t

/-- The state in which the next step runs the instruction of a word of the opcode table (log 14,
log 15); a word that decodes to none leaves the state alone. -/
def State.withFetchWord (s : State) (nbits w : Nat) : State :=
  match decodeTableWord nbits w with
  | some i => s.placing i
  | none => s

end Sys2Proof.Machine
end

