-- ==== Sys2Proof/Safety.lean ====
section
/-! DEFINITION. What counts as a safe run, in the terms the statements use: the invariant of
10_state.md R44, outcomes without a bad memory access, the successors of a sequencer state, and the
count of completed writes. -/

namespace Sys2Proof

open Sys2Proof.Machine

/-- The outcome is no memory fault: the operation read no unwritten byte (10_state.md R46) and made no
access outside a space (20_memory.md R66). -/
def noBadAccess (o : Out) : Prop :=
  ∀ sp a n, o ≠ .fault (.outsideSpace sp a n) ∧ o ≠ .fault (.unwrittenByte sp a n)

/-- The environment of `s` once the device has answered `a` to `c`, with the answers `rest` to come. -/
def afterDev (s : State) (c : DevCmd) (a : DevAnswer) (rest : Answers DevAnswer) : Env :=
  { s.env with devAnswers := rest, trace := s.env.trace ++ [.dev c a] }

/-- The environment of `s` once the store has answered `a` to `c`, with the answers `rest` to come. -/
def afterSink (s : State) (c : SinkCmd) (a : SinkAnswer) (rest : Answers SinkAnswer) : Env :=
  { s.env with sinkAnswers := rest, trace := s.env.trace ++ [.sink c a] }

/-- Byte `j` of the data of an `OK` answer (30_encoding.md R108; log 5). -/
def dataByte (d j : Nat) : Byte := BitVec.ofNat 8 (d / 256 ^ j)

/-- The states of a reception cycle between `ARM` and the return to `IDLE`
(40_reception_state_machine.md R120): both buffers have been filled. -/
def inCycle : Seq → Bool
  | .armed | .frClr | .frLen | .frData | .frIdx | .frTs | .frAcc0 | .frAcc | .frDiag | .frOpen
  | .frWrite | .frCount | .reClr | .reRst | .reDiag => true
  | .idle | .done | .halt | .killed | .reserved _ => false

/-- The states in which a frame that fits has been reported and nothing has failed. -/
def holdsFrame : Seq → Bool
  | .frData | .frIdx | .frTs | .frAcc0 | .frAcc | .frOpen | .frWrite | .frCount => true
  | .idle | .armed | .frClr | .frLen | .frDiag | .reClr | .reRst | .reDiag | .done | .halt | .killed
  | .reserved _ => false

/-- The states of a cycle before a frame length has been accepted. -/
def beforeFrame : Seq → Bool
  | .armed | .frClr | .frLen => true
  | .idle | .frData | .frIdx | .frTs | .frAcc0 | .frAcc | .frDiag | .frOpen | .frWrite | .frCount
  | .reClr | .reRst | .reDiag | .done | .halt | .killed | .reserved _ => false

/-- The states in which the record is complete (10_state.md R43, R44 (2)). -/
def recordReady : Seq → Bool
  | .frOpen | .frWrite | .frCount => true
  | .idle | .armed | .frClr | .frLen | .frData | .frIdx | .frTs | .frAcc0 | .frAcc | .frDiag | .reClr
  | .reRst | .reDiag | .done | .halt | .killed | .reserved _ => false

/-- The invariant of RXCAP: the clauses of 10_state.md R44 (1), (2), (3), (5), made inductive, with the
canonical form of every memory and of the file store, and the configuration's constraints. -/
structure Invariant (s : State) : Prop where
  config    : s.cfg.valid = true
  started   : s.started = true
  legal     : ∀ c, s.seq ≠ .reserved c
  frameWf   : Memory.wf s.cfg.frameCap s.frameBuf = true
  cirWf     : Memory.wf s.cfg.cirLen s.cirBuf = true
  rawWf     : Memory.wf (s.cfg.chunk + 1) s.raw = true
  filesWf   : cellsWf s.files = true
  latch     : s.statusLatch < 2 ^ s.cfg.statusW
  snapshot  : s.diag.length = s.cfg.diagW
  timestamp : s.rxTs.toNat < 2 ^ 40
  halted    : s.seq = .halt ↔ s.haltCause ≠ none
  frameFull : inCycle s.seq = true → Memory.full s.cfg.frameCap s.frameBuf = true
  cirFull   : inCycle s.seq = true → Memory.full s.cfg.cirLen s.cirBuf = true
  notYet    : beforeFrame s.seq = true → s.captureOk = false
  frame     : holdsFrame s.seq = true → s.captureOk = true ∧ s.frameLen ≤ s.cfg.frameCap
  chunks    : s.seq = .frAcc → s.cursor + s.remaining = s.cfg.cirLen ∧ 1 ≤ s.remaining
  ready     : recordReady s.seq = true → s.cursor = s.cfg.cirLen ∧ s.remaining = 0
  verdict   : s.seq = .frDiag → s.captureOk = true →
                s.cursor = s.cfg.cirLen ∧ s.remaining = 0 ∧ s.frameLen ≤ s.cfg.frameCap

/-- The values `seq` may take next (10_state.md R21, last column); `KILL` may write `KILLED` besides, and
a reserved code halts (30_encoding.md R103). -/
def successors : Seq → List Seq
  | .idle => [.done, .armed, .halt]
  | .armed => [.armed, .frClr, .reClr, .halt]
  | .frClr => [.frLen, .halt]
  | .frLen => [.frData, .frDiag, .halt]
  | .frData => [.frIdx, .halt]
  | .frIdx => [.frTs]
  | .frTs => [.frAcc0, .halt]
  | .frAcc0 => [.frAcc]
  | .frAcc => [.frAcc, .frDiag]
  | .frDiag => [.frOpen, .idle, .halt]
  | .frOpen => [.frWrite, .idle]
  | .frWrite => [.frCount, .idle]
  | .frCount => [.idle]
  | .reClr => [.reRst, .halt]
  | .reRst => [.reDiag, .halt]
  | .reDiag => [.idle, .halt]
  | .done | .halt | .killed => []
  | .reserved _ => [.halt]

/-- The terminal values of `seq` (10_state.md R21, 45_session_interface.md R223). -/
def terminal : Seq → Bool
  | .done | .halt | .killed => true
  | .idle | .armed | .frClr | .frLen | .frData | .frIdx | .frTs | .frAcc0 | .frAcc | .frDiag | .frOpen
  | .frWrite | .frCount | .reClr | .reRst | .reDiag | .reserved _ => false

/-- The transaction is a `FILE_WRITE` that answered `OK`. -/
def completedWrite : Transaction → Bool
  | .sink (.fileWrite _ _) .ok => true
  | .sink (.fileWrite _ _) .fail => false
  | .sink (.fileOpen _) _ => false
  | .dev _ _ => false

/-- The number of `FILE_WRITE` commands answered `OK` (42_record_serializer.md R176 (5)). -/
def completedWrites (trace : List Transaction) : Nat := trace.countP completedWrite

/-- Nobody but the host presents a word: the environment the spec describes, without the presented
commands of log 9. -/
def hostOnly (s : State) : Prop :=
  ∀ e, Turn.present e ∈ s.env.turns → e.format = .host

/-- 10_state.md R44 (4): the counter is the number of completed writes.  Between `SERWR` and `COUNT`,
while `seq` is `FR_COUNT`, one completed write is not yet counted, and a `KILL` given there leaves it
uncounted (log 20, DEDUCED). -/
def countsWrites (s : State) : Prop :=
  match s.seq with
  | .frCount => completedWrites s.env.trace = s.frameCount + 1
  | .killed => s.frameCount ≤ completedWrites s.env.trace ∧
      completedWrites s.env.trace ≤ s.frameCount + 1
  | _ => completedWrites s.env.trace = s.frameCount

/-- The bound of a bounded session holds (45_session_interface.md R223): the counter has not passed it,
and has not reached it while a cycle runs. -/
def boundHeld (s : State) : Prop :=
  ∀ m, s.cfg.maxFrames = some m →
    s.frameCount ≤ m ∧ (inCycle s.seq = true → s.frameCount < m)

end Sys2Proof
end

