-- ==== Sys2Proof/Certificates/Slice0/Obligations.lean ====
section
/-! DEFINITION. The statements about RXCAP for the provers: what each operation does, where it completes,
its frame, and the rules of the whole machine. -/

open Sys2Proof Sys2Proof.Machine

/-! ## Encoding and dispatch -/

/-- Words of 30_encoding.md R107, written out from R99 and R100, decode to the instructions they stand
for.  The codes are the spec's decisions D1 and D2. -/
def Obligations.TableWordsDecode : Prop :=
  decode ⟨.seq, 0x00#8, []⟩ = .ok .arm ∧
  decode ⟨.seq, 0x01#8, []⟩ = .ok .stop ∧
  decode ⟨.seq, 0x41#8, []⟩ = .ok .accF ∧
  decode ⟨.seq, 0x58#8, []⟩ = .ok .serWr ∧
  decode ⟨.seq, 0x78#8, []⟩ = .ok .reDiag ∧
  decode ⟨.dri, 0x07#8, [.number 3, .number 6]⟩ = .ok (.accRd 3 6) ∧
  decode ⟨.snk, 0x00#8, [.path 5]⟩ = .ok (.fileOpen 5) ∧
  decode ⟨.host, 0x01#8, []⟩ = .ok .kill

/-- The decoder accepts a word as an instruction exactly when the word is the encoding of that
instruction: decoding an encoding gives the instruction back with every operand, no two words stand for
one instruction, and no other word is accepted (30_encoding.md R99 to R103, R107, R108; the codes are
the spec's decisions D1 and D2). -/
def Obligations.DecodeAcceptsExactlyTheEncodings : Prop :=
  ∀ (e : Encoded) (i : Instr), decode e = .ok i ↔ e = encode i

/-- The dispatch word of 30_encoding.md R99: bits 7:3 the code of `seq`, bits 2:1 zero, bit 0
`bound_reached` in `IDLE`, `more_chunks` in `FR_ACC` and 0 elsewhere (10_state.md R34). -/
def Obligations.DispatchWordFields : Prop :=
  ∀ s : State,
    (dispatchWord s).extractLsb' 3 5 = s.seq.code ∧
    (dispatchWord s).extractLsb' 1 2 = 0#2 ∧
    ((dispatchWord s).getLsbD 0 = true ↔
      (s.seq = .idle ∧ ∃ m, s.cfg.maxFrames = some m ∧ m ≤ s.frameCount) ∨
      (s.seq = .frAcc ∧ s.cfg.chunk < s.remaining))

/-- In a state with `seq` neither terminal nor reserved exactly one sequencer operation's word is the
dispatch word (30_encoding.md R101, an inference the spec marks as derived). -/
def Obligations.DispatchSelectsExactlyOneOperation : Prop :=
  ∀ s : State, terminal s.seq = false → (∀ c, s.seq ≠ .reserved c) →
    ∃! i : Instr, i.format = .seq ∧ encode i = ⟨.seq, dispatchWord s, []⟩

/-- The words of format SEQ that are not in the table are illegal (30_encoding.md R103 (1)): bits 2:1
not zero, `cond` set outside `IDLE` and `FR_ACC`, or a reserved code 19 to 31.  The terminal codes 16 to
18 select no operation and have no row (30_encoding.md R101, R107); that the decoder gives their words the
same name as an illegal word is the model's choice (log 21). -/
def Obligations.IllegalDispatchWordsAreRejected : Prop :=
  ∀ d : BitVec 8,
    decode ⟨.seq, d, []⟩ = .error .illegalDispatchWord ↔
      d.extractLsb' 1 2 ≠ 0#2 ∨ 16 ≤ (d.extractLsb' 3 5).toNat ∨
      (d.getLsbD 0 = true ∧ (d.extractLsb' 3 5).toNat ≠ 0 ∧ (d.extractLsb' 3 5).toNat ≠ 8)

/-- A step runs the decoded instruction: on RXCAP's turn the operation its dispatch word decodes to
(30_encoding.md R101), on a presented word's turn the instruction that word decodes to, in each case
with the turn used up.  Turns and presented words are the model's own (log 9). -/
def Obligations.StepRunsDecodedInstruction : Prop :=
  (∀ (s : State) (i : Instr), s.env.turns = [] → s.started = true → terminal s.seq = false →
    decode ⟨.seq, dispatchWord s, []⟩ = .ok i → step s = exec i s) ∧
  (∀ (s : State) (ts : List Turn) (i : Instr), s.env.turns = .core :: ts → s.started = true →
    terminal s.seq = false → decode ⟨.seq, dispatchWord s, []⟩ = .ok i →
    step s = exec i { s with env := { s.env with turns := ts } }) ∧
  (∀ (s : State) (e : Encoded) (ts : List Turn) (i : Instr), s.env.turns = .present e :: ts →
    e.format ≠ .seq → decode e = .ok i →
    step s = exec i { s with env := { s.env with turns := ts } })

/-- A reserved code in `seq` halts with `halt_cause = (7, D)`, `D` the dispatch word, and changes
nothing else (30_encoding.md R103 (1), 60_exceptions.md R238, the spec's decision D23). -/
def Obligations.ReservedSequencerCodeHalts : Prop :=
  ∀ (s : State) (c : Fin 13), s.env.turns = [] → s.started = true → s.seq = .reserved c →
    step s = .next { s with
      haltCause := some (.illegalSeq (BitVec.ofNat 8 (8 * (19 + c.val))))
      seq := .halt }

/-- Terminal states make no step (30_encoding.md R101): `HALT` is the fault outcome (60_exceptions.md
R236), and in `DONE` and `KILLED` no operation is selected.  That a step is refused there is the model's
choice (log 8). -/
def Obligations.TerminalStatesMakeNoStep : Prop :=
  ∀ s : State, s.env.turns = [] → s.started = true →
    (s.seq = .halt → step s = .fault (.halted s.haltCause)) ∧
    (s.seq = .done → step s = .refused .sessionEnded) ∧
    (s.seq = .killed → step s = .refused .sessionEnded)

/-- The bound is checked before every `ARM`: from `IDLE` a step is `STOP` when `MAX_FRAMES = some m` and
`frame_count >= m`, and `ARM` otherwise, always so when no bound was given
(40_reception_state_machine.md R121; `>=` is the spec's decision D6). -/
def Obligations.BoundIsCheckedBeforeArming : Prop :=
  ∀ s : State, s.env.turns = [] → s.started = true → s.seq = .idle →
    (∀ m, s.cfg.maxFrames = some m → m ≤ s.frameCount → step s = exec .stop s) ∧
    (∀ m, s.cfg.maxFrames = some m → s.frameCount < m → step s = exec .arm s) ∧
    (s.cfg.maxFrames = none → step s = exec .arm s)

/-- In `FR_ACC` a step is `ACCF` while more than one chunk is to come and `ACCL` otherwise
(41_accumulator_chunk_reader.md R152, R153; 10_state.md R34). -/
def Obligations.ChunkLoopSelectsFullOrLast : Prop :=
  ∀ s : State, s.env.turns = [] → s.started = true → s.seq = .frAcc →
    (s.cfg.chunk < s.remaining → step s = exec .accF s) ∧
    (s.remaining ≤ s.cfg.chunk → step s = exec .accL s)

/-! ## Results of the sequencer operations

In every statement `d` is the data of an `OK` answer; its bytes are `dataByte d j` (log 5). -/

/-- `STOP` emits the completion notice and ends the session (40_reception_state_machine.md R121). -/
def Obligations.StopEmitsNotice : Prop :=
  ∀ s : State,
    exec .stop s = .next { s with events := s.events ++ [.noticeDone], seq := .done }

/-- `ARM` zero-fills all of both buffers, clears `capture_ok` and enables the receiver; the zero-fill is
done also when the command fails, which halts (40_reception_state_machine.md R122; the extent is the
spec's decision D31, the halt D9). -/
def Obligations.ArmZeroFillsAndEnables : Prop :=
  ∀ (s : State) (a : DevAnswer) (rest : Answers DevAnswer), s.env.nextDev = some (a, rest) →
    ∃ t, exec .arm s = .next t ∧
      (∀ j < s.cfg.frameCap, t.peek .fb j = some 0#8) ∧
      (∀ j < s.cfg.cirLen, t.peek .cb j = some 0#8) ∧
      t = { s with
        captureOk := false
        frameBuf := t.frameBuf
        cirBuf := t.cirBuf
        env := afterDev s (.rxEnable .immediate) a rest
        haltCause := if a = .fail then some (.deviceIoFatal .rxEnable) else s.haltCause
        seq := if a = .fail then .halt else .armed }

/-- `POLL` latches the status value and classifies it: good first, then error, else poll again; a failed
read halts (40_reception_state_machine.md R123; good before error is the spec's decision D5). -/
def Obligations.PollClassifiesStatus : Prop :=
  ∀ (s : State) (rest : Answers DevAnswer),
    (∀ d, s.env.nextDev = some (.ok d, rest) →
      exec .poll s = .next { s with
        env := afterDev s .statusRd (.ok d) rest
        statusLatch := d % 2 ^ s.cfg.statusW
        seq :=
          if d % 2 ^ s.cfg.statusW &&& s.cfg.goodMask ≠ 0 then .frClr
          else if d % 2 ^ s.cfg.statusW &&& s.cfg.errMask ≠ 0 then .reClr
          else .armed }) ∧
    (s.env.nextDev = some (.fail, rest) →
      exec .poll s = .next { s with
        env := afterDev s .statusRd .fail rest
        haltCause := some (.deviceIoFatal .statusRd)
        seq := .halt })

/-- `CLRGOOD`, the operation of `FR_CLR`, sends `STATUS_CLR(GOOD_MASK)`, and a failure halts; it is the
first action of the macro state `FRAME_READY`, which is entered at `FR_CLR` only
(40_reception_state_machine.md R124). -/
def Obligations.ClrGoodClearsGoodMask : Prop :=
  encode .clrGood = ⟨.seq, 0x10#8, []⟩ ∧
  (∀ (s : State) (rest : Answers DevAnswer),
    (∀ d, s.env.nextDev = some (.ok d, rest) →
      exec .clrGood s = .next { s with
        env := afterDev s (.statusClr s.cfg.goodMask) (.ok d) rest
        seq := .frLen }) ∧
    (s.env.nextDev = some (.fail, rest) →
      exec .clrGood s = .next { s with
        env := afterDev s (.statusClr s.cfg.goodMask) .fail rest
        haltCause := some (.deviceIoFatal .statusClr)
        seq := .halt })) ∧
  (∀ s t : State, s.env.turns = [] → step s = .next t → macroState s.seq ≠ some .frameReady →
    macroState t.seq = some .frameReady → t.seq = .frClr)

/-- `RDLEN` stores the reported length and tests it against the capacity: a length that fits sets
`capture_ok`, one that exceeds it drops the frame silently; a failed read halts
(40_reception_state_machine.md R125). -/
def Obligations.RdLenTestsCapacity : Prop :=
  ∀ (s : State) (rest : Answers DevAnswer),
    (∀ n, s.env.nextDev = some (.ok n, rest) → n ≤ s.cfg.frameCap →
      exec .rdLen s = .next { s with
        env := afterDev s .flenRd (.ok n) rest
        frameLen := n
        captureOk := true
        seq := .frData }) ∧
    (∀ n, s.env.nextDev = some (.ok n, rest) → s.cfg.frameCap < n →
      exec .rdLen s = .next { s with
        env := afterDev s .flenRd (.ok n) rest
        frameLen := n
        seq := .frDiag }) ∧
    (s.env.nextDev = some (.fail, rest) →
      exec .rdLen s = .next { s with
        env := afterDev s .flenRd .fail rest
        haltCause := some (.deviceIoFatal .flenRd)
        seq := .halt })

/-- `RDFRAME` asks for `frame_len` bytes and stores exactly those at the start of the frame buffer; a
failed read halts (40_reception_state_machine.md R126; a zero length is read too, the spec's decision
D13). -/
def Obligations.RdFrameStoresFrameBytes : Prop :=
  ∀ (s : State) (rest : Answers DevAnswer),
    (∀ d, s.env.nextDev = some (.ok d, rest) → s.frameLen ≤ s.cfg.frameCap →
      ∃ t, exec .rdFrame s = .next t ∧
        (∀ j < s.frameLen, t.peek .fb j = some (dataByte d j)) ∧
        (∀ j, s.frameLen ≤ j → t.peek .fb j = s.peek .fb j) ∧
        t = { s with
          env := afterDev s (.frameRd s.frameLen) (.ok d) rest
          frameBuf := t.frameBuf
          seq := .frIdx }) ∧
    (s.env.nextDev = some (.fail, rest) →
      exec .rdFrame s = .next { s with
        env := afterDev s (.frameRd s.frameLen) .fail rest
        haltCause := some (.deviceIoFatal .frameRd)
        seq := .halt })

/-- `XIDX` takes the 32-bit pattern of the four bytes at `IDX_OFF`, in `NATIVE` order, as the frame index
(40_reception_state_machine.md R127, 30_encoding.md R95; the order is the spec's decision D4). -/
def Obligations.XIdxExtractsFrameIndex : Prop :=
  ∀ (s : State) (b₀ b₁ b₂ b₃ : Byte), s.cfg.idxOff + 4 ≤ s.cfg.frameCap →
    s.peek .fb s.cfg.idxOff = some b₀ → s.peek .fb (s.cfg.idxOff + 1) = some b₁ →
    s.peek .fb (s.cfg.idxOff + 2) = some b₂ → s.peek .fb (s.cfg.idxOff + 3) = some b₃ →
    exec .xIdx s = .next { s with
      frameIndex :=
        if s.cfg.native = .little then b₃ ++ b₂ ++ b₁ ++ b₀ else b₀ ++ b₁ ++ b₂ ++ b₃
      seq := .frTs }

/-- `RDTS` asks for the RX timestamp and stores the 40-bit little-endian value of the five answered
bytes, zero-extended; a failed read halts (43_timestamp_extraction.md R191). -/
def Obligations.RdTsStoresTimestamp : Prop :=
  encode .rdTs = ⟨.seq, 0x30#8, []⟩ ∧
  ∀ (s : State) (rest : Answers DevAnswer),
    (∀ d, s.env.nextDev = some (.ok d, rest) →
      exec .rdTs s = .next { s with
        env := afterDev s (.tsRd .rx) (.ok d) rest
        rxTs := 0#24 ++ dataByte d 4 ++ dataByte d 3 ++ dataByte d 2 ++ dataByte d 1 ++ dataByte d 0
        seq := .frAcc0 }) ∧
    (s.env.nextDev = some (.fail, rest) →
      exec .rdTs s = .next { s with
        env := afterDev s (.tsRd .rx) .fail rest
        haltCause := some (.deviceIoFatal .tsRd)
        seq := .halt })

/-- `ACCINIT` starts a chunked read: `remaining = L`, `cursor = 0` (41_accumulator_chunk_reader.md
R151). -/
def Obligations.AccInitStartsAtZero : Prop :=
  encode .accInit = ⟨.seq, 0x38#8, []⟩ ∧
  ∀ s : State,
    exec .accInit s = .next { s with remaining := 4 * s.cfg.n, cursor := 0, seq := .frAcc }

/-- `ACCF` asks for `CHUNK` bytes at `ACC_BASE + cursor`, keeps the raw answer in RAW, copies its bytes 1
to CHUNK, and not the artifact byte 0, to CB at the cursor, and advances; a failed read clears
`capture_ok` and abandons the capture (41_accumulator_chunk_reader.md R152; the offset and the failure
are the spec's decisions D15 and D9). -/
def Obligations.AccFReadsFullChunk : Prop :=
  ∀ (s : State) (rest : Answers DevAnswer),
    (∀ d, s.env.nextDev = some (.ok d, rest) → s.cfg.chunk < s.remaining →
      s.cursor + s.remaining ≤ s.cfg.cirLen →
      ∃ t, exec .accF s = .next t ∧
        (∀ j ≤ s.cfg.chunk, t.peek .raw j = some (dataByte d j)) ∧
        (∀ j < s.cfg.chunk, t.peek .cb (s.cursor + j) = some (dataByte d (j + 1))) ∧
        (∀ j, j < s.cursor ∨ s.cursor + s.cfg.chunk ≤ j → t.peek .cb j = s.peek .cb j) ∧
        t = { s with
          env := afterDev s (.accRd s.cfg.chunk (s.cfg.accBase + s.cursor)) (.ok d) rest
          raw := t.raw
          cirBuf := t.cirBuf
          cursor := s.cursor + s.cfg.chunk
          remaining := s.remaining - s.cfg.chunk
          seq := .frAcc }) ∧
    (s.env.nextDev = some (.fail, rest) →
      exec .accF s = .next { s with
        env := afterDev s (.accRd s.cfg.chunk (s.cfg.accBase + s.cursor)) .fail rest
        captureOk := false
        seq := .frDiag })

/-- `ACCL` reads the last `remaining` bytes in the same way and leaves `cursor` past them and `remaining`
0; bytes of RAW beyond the answer keep older contents; a failed read abandons the capture
(41_accumulator_chunk_reader.md R153; the final updates are the spec's decision D16). -/
def Obligations.AccLReadsLastChunk : Prop :=
  ∀ (s : State) (rest : Answers DevAnswer),
    (∀ d, s.env.nextDev = some (.ok d, rest) → s.remaining ≤ s.cfg.chunk →
      s.cursor + s.remaining ≤ s.cfg.cirLen →
      ∃ t, exec .accL s = .next t ∧
        (∀ j ≤ s.remaining, t.peek .raw j = some (dataByte d j)) ∧
        (∀ j, s.remaining < j → t.peek .raw j = s.peek .raw j) ∧
        (∀ j < s.remaining, t.peek .cb (s.cursor + j) = some (dataByte d (j + 1))) ∧
        (∀ j, j < s.cursor ∨ s.cursor + s.remaining ≤ j → t.peek .cb j = s.peek .cb j) ∧
        t = { s with
          env := afterDev s (.accRd s.remaining (s.cfg.accBase + s.cursor)) (.ok d) rest
          raw := t.raw
          cirBuf := t.cirBuf
          cursor := s.cursor + s.remaining
          remaining := 0
          seq := .frDiag }) ∧
    (s.env.nextDev = some (.fail, rest) →
      exec .accL s = .next { s with
        env := afterDev s (.accRd s.remaining (s.cfg.accBase + s.cursor)) .fail rest
        captureOk := false
        seq := .frDiag })

/-- `FRDIAG` stores the snapshot and goes on to the serializer only when `capture_ok` is 1; a failed read
halts (40_reception_state_machine.md R128). -/
def Obligations.FrDiagGuardsSerializer : Prop :=
  ∀ (s : State) (rest : Answers DevAnswer),
    (∀ d, s.env.nextDev = some (.ok d, rest) →
      exec .frDiag s = .next { s with
        env := afterDev s .diagRd (.ok d) rest
        diag := (List.range s.cfg.diagW).map (dataByte d)
        seq := if s.captureOk = true then .frOpen else .idle }) ∧
    (s.env.nextDev = some (.fail, rest) →
      exec .frDiag s = .next { s with
        env := afterDev s .diagRd .fail rest
        haltCause := some (.deviceIoFatal .diagRd)
        seq := .halt })

/-- `SEROPEN` opens `path_of(EXP_ID, frame_index)`, with the configuration record's own `path_of`,
afresh: on `OK` that file is empty, every other file
as it was, and the path is remembered; on `FAIL` the failure is logged, no file changes and the next
cycle starts (42_record_serializer.md R171). -/
def Obligations.SerOpenTruncatesOrLogs : Prop :=
  encode .serOpen = ⟨.seq, 0x50#8, []⟩ ∧
  ∀ (s : State) (rest : Answers SinkAnswer) (p : Path), p = pathAt s.cfg.pathOf s.cfg.expId s.frameIndex →
    (s.env.nextSink = some (.ok, rest) →
      ∃ t, exec .serOpen s = .next t ∧
        readCell t.files p = some [] ∧
        (∀ q, q ≠ p → readCell t.files q = readCell s.files q) ∧
        t = { s with
          env := afterSink s (.fileOpen p) .ok rest
          files := t.files
          curPath := p
          seq := .frWrite }) ∧
    (s.env.nextSink = some (.fail, rest) →
      exec .serOpen s = .next { s with
        env := afterSink s (.fileOpen p) .fail rest
        events := s.events ++ [.logOpenFail p]
        seq := .idle })

/-- `SERWR` writes the record of the frame index, the timestamp and the whole CIR buffer to the open
file; on `OK` that file holds it and every other file is as it was; on `FAIL` the failure is logged and
no file changes (42_record_serializer.md R172; the failure is the spec's decision D8). -/
def Obligations.SerWrWritesRecordOrLogs : Prop :=
  ∀ (s : State) (rest : Answers SinkAnswer) (cir b : List Byte), cir.length = 4 * s.cfg.n →
    (∀ j < 4 * s.cfg.n, s.peek .cb j = cir[j]?) →
    b = bytesNative s.cfg.native 4 s.frameIndex.toNat
      ++ bytesNative s.cfg.native 8 s.rxTs.toNat ++ cir →
    (s.env.nextSink = some (.ok, rest) →
      ∃ t, exec .serWr s = .next t ∧
        readCell t.files s.curPath = some b ∧
        (∀ q, q ≠ s.curPath → readCell t.files q = readCell s.files q) ∧
        t = { s with
          env := afterSink s (.fileWrite s.curPath b) .ok rest
          files := t.files
          seq := .frCount }) ∧
    (s.env.nextSink = some (.fail, rest) →
      exec .serWr s = .next { s with
        env := afterSink s (.fileWrite s.curPath b) .fail rest
        events := s.events ++ [.logWriteFail s.curPath]
        seq := .idle })

/-- `COUNT` counts one fully successful capture, it is reached only from `SERWR` with answer `OK`, and no
other step of a started RXCAP changes the counter (40_reception_state_machine.md R129). -/
def Obligations.CountAddsOne : Prop :=
  encode .count = ⟨.seq, 0x60#8, []⟩ ∧
  (∀ s : State,
    exec .count s = .next { s with frameCount := s.frameCount + 1, seq := .idle }) ∧
  (∀ s t : State, s.env.turns = [] → step s = .next t → t.seq = .frCount →
    s.seq = .frWrite ∧ ∃ rest, s.env.nextSink = some (.ok, rest)) ∧
  (∀ s t : State, s.started = true → step s = .next t → t.frameCount ≠ s.frameCount →
    s.seq = .frCount ∧ t.seq = .idle ∧ t.frameCount = s.frameCount + 1)

/-- `CLRERR` sends `STATUS_CLR(ERR_MASK)`, the whole mask whatever the latch holds
(40_reception_state_machine.md R130). -/
def Obligations.ClrErrClearsWholeMask : Prop :=
  encode .clrErr = ⟨.seq, 0x68#8, []⟩ ∧
  ∀ (s : State) (rest : Answers DevAnswer),
    (∀ d, s.env.nextDev = some (.ok d, rest) →
      exec .clrErr s = .next { s with
        env := afterDev s (.statusClr s.cfg.errMask) (.ok d) rest
        seq := .reRst }) ∧
    (s.env.nextDev = some (.fail, rest) →
      exec .clrErr s = .next { s with
        env := afterDev s (.statusClr s.cfg.errMask) .fail rest
        haltCause := some (.deviceIoFatal .statusClr)
        seq := .halt })

/-- `RXRST` sends `RX_RESET`, and a failure halts; it comes once per error event, after the status
clear: `RE_RST` is entered from `RE_CLR` only (40_reception_state_machine.md R131). -/
def Obligations.RxRstResetsReceiver : Prop :=
  encode .rxRst = ⟨.seq, 0x70#8, []⟩ ∧
  (∀ (s : State) (rest : Answers DevAnswer),
    (∀ d, s.env.nextDev = some (.ok d, rest) →
      exec .rxRst s = .next { s with
        env := afterDev s .rxReset (.ok d) rest
        seq := .reDiag }) ∧
    (s.env.nextDev = some (.fail, rest) →
      exec .rxRst s = .next { s with
        env := afterDev s .rxReset .fail rest
        haltCause := some (.deviceIoFatal .rxReset)
        seq := .halt })) ∧
  (∀ s t : State, s.env.turns = [] → step s = .next t → s.seq ≠ .reRst → t.seq = .reRst →
    s.seq = .reClr)

/-- `REDIAG` stores the snapshot and ends the error cycle (40_reception_state_machine.md R132; its place
is the spec's decision D7). -/
def Obligations.ReDiagEndsErrorCycle : Prop :=
  ∀ (s : State) (rest : Answers DevAnswer),
    (∀ d, s.env.nextDev = some (.ok d, rest) →
      exec .reDiag s = .next { s with
        env := afterDev s .diagRd (.ok d) rest
        diag := (List.range s.cfg.diagW).map (dataByte d)
        seq := .idle }) ∧
    (s.env.nextDev = some (.fail, rest) →
      exec .reDiag s = .next { s with
        env := afterDev s .diagRd .fail rest
        haltCause := some (.deviceIoFatal .diagRd)
        seq := .halt })

/-! ## Results of the commands and of the host operations -/

/-- Every device command, answered `OK` or `FAIL`, completes: the command and its answer join the trace
and nothing of RXCAP changes (44_device_register_interface.md R200 to R210: what RXCAP does with an
answer is the issuing operation's).  That a command runs as a step of its own is the model's choice
(log 9). -/
def Obligations.DeviceCommandsComplete : Prop :=
  ∀ (s : State) (a : DevAnswer) (rest : Answers DevAnswer), s.env.nextDev = some (a, rest) →
    exec .statusRd s = .next { s with env := afterDev s .statusRd a rest } ∧
    (∀ m, exec (.statusClr m) s = .next { s with env := afterDev s (.statusClr m) a rest }) ∧
    (∀ m, exec (.rxEnable m) s = .next { s with env := afterDev s (.rxEnable m) a rest }) ∧
    exec .rxReset s = .next { s with env := afterDev s .rxReset a rest } ∧
    exec .flenRd s = .next { s with env := afterDev s .flenRd a rest } ∧
    (∀ n, exec (.frameRd n) s = .next { s with env := afterDev s (.frameRd n) a rest }) ∧
    (∀ v, exec (.tsRd v) s = .next { s with env := afterDev s (.tsRd v) a rest }) ∧
    (∀ n o, exec (.accRd n o) s = .next { s with env := afterDev s (.accRd n o) a rest }) ∧
    exec .diagRd s = .next { s with env := afterDev s .diagRd a rest }

/-- `FILE_OPEN(path)`: `OK` leaves the file existing and empty and every other file as it was; `FAIL`
leaves every file as it was (42_record_serializer.md R173, 20_memory.md R72). -/
def Obligations.FileOpenTruncates : Prop :=
  ∀ (s : State) (rest : Answers SinkAnswer) (p : Path),
    (s.env.nextSink = some (.ok, rest) →
      ∃ t, exec (.fileOpen p) s = .next t ∧
        readCell t.files p = some [] ∧
        (∀ q, q ≠ p → readCell t.files q = readCell s.files q) ∧
        t = { s with env := afterSink s (.fileOpen p) .ok rest, files := t.files }) ∧
    (s.env.nextSink = some (.fail, rest) →
      exec (.fileOpen p) s = .next { s with env := afterSink s (.fileOpen p) .fail rest })

/-- `FILE_WRITE(path, bytes)`: `OK` leaves the file holding exactly the bytes; `FAIL` leaves every file
as it was (42_record_serializer.md R174; one transaction for write and close is the spec's decision
D8). -/
def Obligations.FileWriteStoresBytes : Prop :=
  ∀ (s : State) (rest : Answers SinkAnswer) (p : Path) (b : List Byte),
    (s.env.nextSink = some (.ok, rest) →
      ∃ t, exec (.fileWrite p b) s = .next t ∧
        readCell t.files p = some b ∧
        (∀ q, q ≠ p → readCell t.files q = readCell s.files q) ∧
        t = { s with env := afterSink s (.fileWrite p b) .ok rest, files := t.files }) ∧
    (s.env.nextSink = some (.fail, rest) →
      exec (.fileWrite p b) s = .next { s with env := afterSink s (.fileWrite p b) .fail rest })

/-- `START(cfg)` on an RXCAP that has not been started, with a configuration that meets the constraints,
begins a session: the values 45_session_interface.md R220 gives.  A second `START` and a configuration
outside the constraints are refused (U21, U10, U11).  The values of the registers R220 leaves
unspecified are the model's choice (log 3) and are not stated here; that no buffer byte has a value, and
that the answers and turns to come stay while the trace begins anew, are log 4 and log 17.  The record
carries `path_of` (00_scope.md R2, 10_state.md R38, U16): for every function from frame indices to paths
there is a record that differs from a given one in `path_of` only and whose session uses exactly that
function; that the record holds it as a list of points is the model's form (log 2). -/
def Obligations.StartBeginsSession : Prop :=
  ∀ (s : State) (cfg : Config),
    (s.started = false → cfg.valid = true →
      ∃ t, exec (.start cfg) s = .next t ∧
        t.cfg = cfg ∧ t.frameCount = 0 ∧ t.captureOk = false ∧ t.haltCause = none ∧
        t.events = [] ∧ t.files = [] ∧ t.seq = .idle ∧ t.started = true ∧
        (∀ sp a, t.peek sp a = none) ∧ t.env = { s.env with trace := [] }) ∧
    (s.started = true → exec (.start cfg) s = .refused .secondStart) ∧
    (s.started = false → cfg.valid = false →
      exec (.start cfg) s = .refused .configurationOutsideDomain) ∧
    (s.started = false → cfg.valid = true → ∀ f : BitVec 32 → Path,
      ∃ g t, exec (.start { cfg with pathOf := g }) s = .next t ∧
        t.cfg = { cfg with pathOf := g } ∧ ∀ i, pathOfFrame t.cfg i = f i)

/-- `KILL` ends a session in any state with `seq` not terminal and writes nothing but `seq`; in a
terminal state it changes nothing (45_session_interface.md R221, V123; the spec's decision D18; the
last clause is log 12). -/
def Obligations.KillInterrupts : Prop :=
  ∀ s : State,
    (terminal s.seq = false → exec .kill s = .next { s with seq := .killed }) ∧
    (terminal s.seq = true → exec .kill s = .next s)

/-! ## Failed and unanswered transactions -/

/-- Every operation whose device command, other than `ACC_RD`, answers `FAIL` is the hard stop:
`halt_cause = (6, command)`, `seq = HALT`, and files, events and the counter stay (60_exceptions.md R236,
the spec's decision D9). -/
def Obligations.FailedDeviceCommandHalts : Prop :=
  ∀ (i : Instr) (c : DevName) (s : State) (rest : Answers DevAnswer),
    (i, c) ∈ [(Instr.arm, DevName.rxEnable), (.poll, .statusRd), (.clrGood, .statusClr),
      (.rdLen, .flenRd), (.rdFrame, .frameRd), (.rdTs, .tsRd), (.frDiag, .diagRd),
      (.clrErr, .statusClr), (.rxRst, .rxReset), (.reDiag, .diagRd)] →
    s.env.nextDev = some (.fail, rest) →
    ∃ t, exec i s = .next t ∧ t.seq = .halt ∧ t.haltCause = some (.deviceIoFatal c) ∧
      haltCode (.deviceIoFatal c) = 6 ∧
      t.files = s.files ∧ t.events = s.events ∧ t.frameCount = s.frameCount

/-- An operation whose transaction gets no answer is stuck: its step answers the state unchanged, which
is how the model says "no step" (44_device_register_interface.md R211, the spec's decision D27;
log 6). -/
def Obligations.UnansweredTransactionWaits : Prop :=
  (∀ (i : Instr) (s : State),
    i ∈ [Instr.arm, .poll, .clrGood, .rdLen, .rdFrame, .rdTs, .accF, .accL, .frDiag, .clrErr, .rxRst,
      .reDiag] →
    s.env.nextDev = none → exec i s = .next s) ∧
  (∀ s : State, s.env.nextSink = none → exec .serOpen s = .next s) ∧
  (∀ s : State, s.env.nextSink = none →
    (∀ j < s.cfg.cirLen, (s.peek .cb j).isSome = true) → exec .serWr s = .next s)

/-! ## Frames -/

/-- The frames of the operations that make no transaction (40_reception_state_machine.md R121, R127,
R129; 41_accumulator_chunk_reader.md R151; 45_session_interface.md R221): each changes only the fields
named, no flag, and no byte of any buffer. -/
def Obligations.FrameOfOperationsWithoutTransaction : Prop :=
  (∀ s t, exec .stop s = .next t → t = { s with seq := t.seq, events := t.events }) ∧
  (∀ s t, exec .xIdx s = .next t → t = { s with seq := t.seq, frameIndex := t.frameIndex }) ∧
  (∀ s t, exec .count s = .next t → t = { s with seq := t.seq, frameCount := t.frameCount }) ∧
  (∀ s t, exec .accInit s = .next t →
    t = { s with seq := t.seq, remaining := t.remaining, cursor := t.cursor }) ∧
  (∀ s t, exec .kill s = .next t → t = { s with seq := t.seq }) ∧
  (∀ i s t, i ∈ [Instr.stop, .xIdx, .count, .accInit, .kill] → exec i s = .next t →
    ∀ sp a, t.peek sp a = s.peek sp a)

/-- The frames of the operations that make a device transaction and store nothing in a buffer: each
changes only `seq`, `halt_cause`, the answers and the trace, and the register named (`capture_ok` for
`RDLEN`); every byte of every buffer reads as before (40_reception_state_machine.md R123 to R132,
43_timestamp_extraction.md R191). -/
def Obligations.FrameOfDeviceReads : Prop :=
  (∀ i s t, i ∈ [Instr.poll, .clrGood, .rdLen, .rdTs, .frDiag, .clrErr, .rxRst, .reDiag] →
    exec i s = .next t →
    t = { s with
      seq := t.seq
      haltCause := t.haltCause
      statusLatch := if i = .poll then t.statusLatch else s.statusLatch
      frameLen := if i = .rdLen then t.frameLen else s.frameLen
      captureOk := if i = .rdLen then t.captureOk else s.captureOk
      rxTs := if i = .rdTs then t.rxTs else s.rxTs
      diag := if i = .frDiag ∨ i = .reDiag then t.diag else s.diag
      env := { s.env with devAnswers := t.env.devAnswers, trace := t.env.trace } } ∧
    ∀ sp a, t.peek sp a = s.peek sp a)

/-- The frames of the operations that store in a buffer (40_reception_state_machine.md R122, R126;
41_accumulator_chunk_reader.md R152, R153).  `ARM` stores to all of FB and CB; `RDFRAME` to FB from 0 on,
`frame_len` bytes; `ACCF` and `ACCL` to RAW from 0 on, one byte more than the chunk, and to CB from the
cursor on, the chunk.  Every other byte reads as before. -/
def Obligations.FrameOfBufferStores : Prop :=
  (∀ s t, exec .arm s = .next t →
    (∀ a, s.cfg.frameCap ≤ a → t.peek .fb a = s.peek .fb a) ∧
    (∀ a, s.cfg.cirLen ≤ a → t.peek .cb a = s.peek .cb a) ∧
    t = { s with
      seq := t.seq, haltCause := t.haltCause, captureOk := t.captureOk
      frameBuf := t.frameBuf, cirBuf := t.cirBuf
      env := { s.env with devAnswers := t.env.devAnswers, trace := t.env.trace } }) ∧
  (∀ s t, exec .rdFrame s = .next t →
    (∀ a, s.frameLen ≤ a → t.peek .fb a = s.peek .fb a) ∧
    t = { s with
      seq := t.seq, haltCause := t.haltCause, frameBuf := t.frameBuf
      env := { s.env with devAnswers := t.env.devAnswers, trace := t.env.trace } }) ∧
  (∀ s t n, (exec .accF s = .next t ∧ n = s.cfg.chunk) ∨ (exec .accL s = .next t ∧ n = s.remaining) →
    (∀ a, n + 1 ≤ a → t.peek .raw a = s.peek .raw a) ∧
    (∀ a, a < s.cursor ∨ s.cursor + n ≤ a → t.peek .cb a = s.peek .cb a) ∧
    t = { s with
      seq := t.seq, captureOk := t.captureOk, cursor := t.cursor, remaining := t.remaining
      raw := t.raw, cirBuf := t.cirBuf
      env := { s.env with devAnswers := t.env.devAnswers, trace := t.env.trace } })

/-- The frames of the serializer's operations (42_record_serializer.md R171, R172): `SEROPEN` changes no
file but that of `path_of(EXP_ID, frame_index)`, `SERWR` none but that of `cur_path`; besides, only the
fields named; every byte of every buffer reads as before. -/
def Obligations.FrameOfSerializer : Prop :=
  (∀ s t, exec .serOpen s = .next t →
    (∀ q, q ≠ pathAt s.cfg.pathOf s.cfg.expId s.frameIndex → readCell t.files q = readCell s.files q) ∧
    (∀ sp a, t.peek sp a = s.peek sp a) ∧
    t = { s with
      seq := t.seq, curPath := t.curPath, events := t.events, files := t.files
      env := { s.env with sinkAnswers := t.env.sinkAnswers, trace := t.env.trace } }) ∧
  (∀ s t, exec .serWr s = .next t →
    (∀ q, q ≠ s.curPath → readCell t.files q = readCell s.files q) ∧
    (∀ sp a, t.peek sp a = s.peek sp a) ∧
    t = { s with
      seq := t.seq, events := t.events, files := t.files
      env := { s.env with sinkAnswers := t.env.sinkAnswers, trace := t.env.trace } })

/-- The frames of the commands as instructions of their own, which is the model's choice (log 9): in the
spec only RXCAP's operations issue them.  A device command changes the answers and the trace only
(44_device_register_interface.md R200), a store command those of the store and the file of its path only
(42_record_serializer.md R173, R174); no register, flag or buffer byte changes. -/
def Obligations.FrameOfCommands : Prop :=
  (∀ i s t, i.format = .dri → exec i s = .next t →
    t = { s with env := { s.env with devAnswers := t.env.devAnswers, trace := t.env.trace } } ∧
    ∀ sp a, t.peek sp a = s.peek sp a) ∧
  (∀ i s t p, (i = .fileOpen p ∨ ∃ b, i = .fileWrite p b) → exec i s = .next t →
    (∀ q, q ≠ p → readCell t.files q = readCell s.files q) ∧
    (∀ sp a, t.peek sp a = s.peek sp a) ∧
    t = { s with
      files := t.files
      env := { s.env with sinkAnswers := t.env.sinkAnswers, trace := t.env.trace } })

/-! ## Rules of the whole machine -/

/-- Reset, which is `START` with the configuration of log 1, meets the invariant of 10_state.md R44.  Its
clauses on `status_latch`, `diag` and `rx_ts` hold here by the zeros of log 3, which are the model's
choice: 10_state.md R45 leaves those registers unspecified. -/
def Obligations.ResetMeetsInvariant : Prop := Invariant State.reset

/-- `START` on an RXCAP that has not been started establishes the invariant, whatever the state before.
Its clauses on `status_latch`, `diag` and `rx_ts` hold here by the zeros of log 3, which are the model's
choice: 45_session_interface.md R220 and 10_state.md R45 leave those registers unspecified. -/
def Obligations.StartEstablishesInvariant : Prop :=
  ∀ (s t : State) (cfg : Config), exec (.start cfg) s = .next t → Invariant t

/-- Every step keeps the invariant of 10_state.md R44 (an inference the spec marks as derived): the
buffers stay canonical and inside their spaces, `cursor + remaining = L` while chunks are read, the
record is complete where the serializer runs, the timestamp stays below 2^40, and `seq = HALT` exactly
when there is a halt cause. -/
def Obligations.StepKeepsInvariant : Prop :=
  ∀ s t : State, Invariant s → step s = .next t → Invariant t

/-- In a state that meets the invariant no step reads a byte that nothing has written since `START`
(10_state.md R46) or accesses a space outside its bounds (20_memory.md R66); both are inferences the
spec marks as derived. -/
def Obligations.InvariantPreventsBadAccess : Prop :=
  ∀ s : State, Invariant s → noBadAccess (step s)

/-- Every step keeps the count of completed writes, when only the host presents words (log 9): the counter
equals the number of `FILE_WRITE` commands answered `OK`, with two exceptions, which are the model's
reading (log 20) of 10_state.md R44 (4) and 42_record_serializer.md R176 (5).  While `seq` is `FR_COUNT`
one completed write is not counted yet, so there are exactly one more; and in `KILLED`, since `KILL` may
have come there, there are as many or one more. -/
def Obligations.StepKeepsCompletedWriteCount : Prop :=
  ∀ s t : State, s.started = true → hostOnly s → countsWrites s → step s = .next t →
    t.started = true ∧ hostOnly t ∧ countsWrites t

/-- A bounded session never counts past its bound, and when it reaches `DONE` exactly `MAX_FRAMES` writes
have completed (45_session_interface.md R223; 40_reception_state_machine.md R121). -/
def Obligations.BoundedSessionWritesExactlyBound : Prop :=
  ∀ s t : State, s.started = true → hostOnly s → countsWrites s → boundHeld s → step s = .next t →
    boundHeld t ∧
    (s.seq ≠ .done → t.seq = .done →
      ∃ m, t.cfg.maxFrames = some m ∧ completedWrites t.env.trace = m)

/-- On RXCAP's turn `seq` moves only as the table of 10_state.md R21 says (the codes and sub-states are
the spec's decision D1), unless the operation waits for an answer and nothing changes (log 6). -/
def Obligations.SequencerFollowsItsTable : Prop :=
  ∀ s t : State, s.env.turns = [] → step s = .next t → t.seq ∈ successors s.seq ∨ t = s

/-- No step writes the configuration record of a started RXCAP (10_state.md R38). -/
def Obligations.ConfigurationIsReadOnly : Prop :=
  ∀ s t : State, s.started = true → step s = .next t → t.cfg = s.cfg

/-- The counter changes only in `COUNT`, from `FR_COUNT`, by one (10_state.md R28, 60_exceptions.md
R243). -/
def Obligations.CounterChangesOnlyInCount : Prop :=
  ∀ s t : State, s.started = true → step s = .next t →
    t.frameCount = s.frameCount ∨
    (s.seq = .frCount ∧ t.seq = .idle ∧ t.frameCount = s.frameCount + 1)

/-- Events are only ever appended; `halt_cause` is written only together with `seq <- HALT`; and in a
state that meets the invariant a `halt_cause` once set stays, with `seq` at `HALT` (10_state.md R40, R32,
60_exceptions.md R236). -/
def Obligations.EventsGrowAndHaltCauseIsSticky : Prop :=
  ∀ s t : State, s.started = true → step s = .next t →
    (∃ new, t.events = s.events ++ new) ∧
    (t.haltCause ≠ s.haltCause → t.seq = .halt) ∧
    (Invariant s → s.haltCause ≠ none → t.haltCause = s.haltCause ∧ t.seq = .halt)

/-- A step makes at most one transaction, and it is recorded after all earlier ones, so the device and
the store see the commands in the order of the operations (20_memory.md R73; one transaction per
operation is the spec's decision D33). -/
def Obligations.AtMostOneTransactionPerStep : Prop :=
  ∀ s t : State, s.started = true → step s = .next t →
    t.env.trace = s.env.trace ∨ ∃ x, t.env.trace = s.env.trace ++ [x]

/-- A chunk read failure abandons the capture: the next operation reads the diagnostics and returns to
`IDLE`; no further chunk is read, no file, event or counter changes, and nothing is serialized
(41_accumulator_chunk_reader.md R155, 60_exceptions.md R234). -/
def Obligations.ChunkFailureDropsCapture : Prop :=
  ∀ (s : State) (d : Nat), s.started = true → s.env.turns = [] →
    s.seq = .frAcc → s.env.devAnswers.take freeDev 2 = [.fail, .ok d] →
    ∃ t, core.run 2 s = .next t ∧ t.seq = .idle ∧ t.captureOk = false ∧
      t.frameCount = s.frameCount ∧ t.files = s.files ∧ t.events = s.events ∧
      t.env.trace = s.env.trace ++
        [.dev (.accRd (if s.cfg.chunk < s.remaining then s.cfg.chunk else s.remaining)
            (s.cfg.accBase + s.cursor)) .fail,
         .dev .diagRd (.ok d)]

/-- An oversized frame is dropped silently: the next operation reads the diagnostics and returns to
`IDLE`; no frame is read, no file, event or counter changes (60_exceptions.md R232, 90_conflicts.md C2).
The premise that `capture_ok` is 0 in `FR_LEN` is a clause of the invariant. -/
def Obligations.OversizedFrameIsDropped : Prop :=
  ∀ (s : State) (n d : Nat), s.started = true → s.env.turns = [] →
    s.seq = .frLen → s.captureOk = false → s.env.devAnswers.take freeDev 2 = [.ok n, .ok d] →
    s.cfg.frameCap < n →
    ∃ t, core.run 2 s = .next t ∧ t.seq = .idle ∧ t.captureOk = false ∧
      t.frameCount = s.frameCount ∧ t.files = s.files ∧ t.events = s.events ∧
      t.env.trace = s.env.trace ++ [.dev .flenRd (.ok n), .dev .diagRd (.ok d)]

/-- The error path clears every error bit, resets the receiver and drains the diagnostics, in that order,
and leaves counter, files and events alone (60_exceptions.md R233, 20_memory.md R75; the place of the
diagnostics read is the spec's decision D7). -/
def Obligations.ErrorPathClearsResetsDrains : Prop :=
  ∀ (s : State) (d₁ d₂ d₃ : Nat), s.started = true → s.env.turns = [] →
    s.seq = .reClr → s.env.devAnswers.take freeDev 3 = [.ok d₁, .ok d₂, .ok d₃] →
    ∃ t, core.run 3 s = .next t ∧ t.seq = .idle ∧
      t.frameCount = s.frameCount ∧ t.files = s.files ∧ t.events = s.events ∧
      t.env.trace = s.env.trace ++
        [.dev (.statusClr s.cfg.errMask) (.ok d₁), .dev .rxReset (.ok d₂), .dev .diagRd (.ok d₃)]

/-! ## Data formats and the chunk reader as a whole -/

/-- `TS40` is the little-endian value of its five bytes, and bits 63 to 40 are zero
(43_timestamp_extraction.md R190). -/
def Obligations.TimestampIsFortyBitLittleEndian : Prop :=
  ∀ b₀ b₁ b₂ b₃ b₄ : Byte,
    (ts40 [b₀, b₁, b₂, b₃, b₄]).toNat =
      b₀.toNat + 2 ^ 8 * b₁.toNat + 2 ^ 16 * b₂.toNat + 2 ^ 24 * b₃.toNat + 2 ^ 32 * b₄.toNat ∧
    (ts40 [b₀, b₁, b₂, b₃, b₄]).extractLsb' 40 24 = 0#24

/-- The record's layout: `12 + 4N` bytes; the frame index in bytes 0 to 3 and the timestamp in bytes 4 to
11, in `NATIVE` order; then the CIR bytes in address order (30_encoding.md R91, 20_memory.md R63; that
the CIR bytes are moved unswapped is the spec's decision D29). -/
def Obligations.RecordLayout : Prop :=
  ∀ (o : ByteOrder) (i : BitVec 32) (t : BitVec 64) (cir : List Byte),
    (record o i t cir).length = 12 + cir.length ∧
    (∀ j < 4, (record o i t cir)[j]? = some (i.extractLsb' (8 * if o = .little then j else 3 - j) 8)) ∧
    (∀ j < 8,
      (record o i t cir)[4 + j]? = some (t.extractLsb' (8 * if o = .little then j else 7 - j) 8)) ∧
    (∀ j, (record o i t cir)[12 + j]? = cir[j]?)

/-- The round trip of the record: `PARSE(REC(i, t, C)) = (i, t, C)` and `REC(PARSE(F)) = F`
(30_encoding.md R98, an inference the spec marks as derived). -/
def Obligations.RecordRoundTrip : Prop :=
  (∀ (o : ByteOrder) (i : BitVec 32) (t : BitVec 64) (c : List Byte),
    parse o (record o i t c) = (i, t, c)) ∧
  (∀ (o : ByteOrder) (f : List Byte), 12 ≤ f.length →
    record o (parse o f).1 (parse o f).2.1 (parse o f).2.2 = f)

/-- `ACC_READ` on answers that are all `OK`: it issues `ceil(L / CHUNK)` reads, full chunks at multiples
of CHUNK and a last one of the rest, never of length zero, and delivers exactly `L` bytes, byte `j` being
byte `j mod CHUNK + 1` of answer `j / CHUNK`, so no artifact byte is ever delivered
(41_accumulator_chunk_reader.md R150, R154, R156, inferences the spec marks as derived). -/
def Obligations.AccReadCopiesExactlyTheBytes : Prop :=
  ∀ (len chunk base : Nat) (ds : List Nat), 1 ≤ len → 1 ≤ chunk →
    ds.length = (len + chunk - 1) / chunk →
    (accRead len chunk base (ds.map .ok)).result = .complete ∧
    (accRead len chunk base (ds.map .ok)).reads =
      (List.range ds.length).map (fun k => (min chunk (len - k * chunk), base + k * chunk)) ∧
    (accRead len chunk base (ds.map .ok)).bytes.length = len ∧
    (∀ j < len, ∃ d, ds[j / chunk]? = some d ∧
      (accRead len chunk base (ds.map .ok)).bytes[j]? = some (dataByte d (j % chunk + 1)))

/-- The machine's chunk reader is `ACC_READ` on the device's answers to come, of which it needs at most
`L`: from `FR_ACC0`, `ACCINIT` and one step per read of
`ACC_READ` reach `FR_DIAG` having issued exactly its reads, in order, having stored exactly the bytes it
delivers at the start of CB and left every other byte of CB alone, with `capture_ok` cleared exactly when
a read failed (41_accumulator_chunk_reader.md R150 to R155). -/
def Obligations.MachineRunsAccRead : Prop :=
  ∀ (s : State) (r : AccRun), s.started = true → s.env.turns = [] → s.seq = .frAcc0 →
    1 ≤ s.cfg.n → 1 ≤ s.cfg.chunk →
    r = accRead s.cfg.cirLen s.cfg.chunk s.cfg.accBase (s.env.devAnswers.take freeDev s.cfg.cirLen) →
    r.result ≠ .unanswered →
    ∃ t, core.run (1 + r.reads.length) s = .next t ∧
      t.seq = .frDiag ∧
      t.captureOk = (s.captureOk && decide (r.result = .complete)) ∧
      t.cursor = r.bytes.length ∧ t.remaining = s.cfg.cirLen - r.bytes.length ∧
      (∀ j < r.bytes.length, t.peek .cb j = r.bytes[j]?) ∧
      (∀ j, r.bytes.length ≤ j → t.peek .cb j = s.peek .cb j) ∧
      t.env.devAnswers = s.env.devAnswers.drop freeDev r.reads.length ∧
      t.env.trace = s.env.trace ++
        List.zipWith (fun read a => Transaction.dev (.accRd read.1 read.2) a) r.reads
          (s.env.devAnswers.take freeDev s.cfg.cirLen) ∧
      t = { s with
        seq := t.seq, captureOk := t.captureOk, cursor := t.cursor, remaining := t.remaining
        raw := t.raw, cirBuf := t.cirBuf
        env := { s.env with devAnswers := t.env.devAnswers, trace := t.env.trace } }

/-! ## Endless runs -/

/-- `POLL` may repeat for ever (40_reception_state_machine.md R123, 70_reset_and_hazards.md R267, U2 of
93_implementation_defined.md): in `ARMED`, with a device that answers every command `OK` with a status
value that shows neither event, any number of steps are all `POLL`s, each one answered, and nothing
but the latch and the trace has changed.  That the device's answers are given as a repeating sequence is
the model's form (log 5). -/
def Obligations.PollMayRepeatForEver : Prop :=
  ∀ (s : State) (d : Nat), s.started = true → s.env.turns = [] → s.seq = .armed →
    s.env.devAnswers = ⟨[], .cycle (.ok d) []⟩ →
    (d % 2 ^ s.cfg.statusW) &&& s.cfg.goodMask = 0 → (d % 2 ^ s.cfg.statusW) &&& s.cfg.errMask = 0 →
    ∀ k, core.run k s = .next { s with
      statusLatch := if k = 0 then s.statusLatch else d % 2 ^ s.cfg.statusW
      env := { s.env with trace := s.env.trace ++ List.replicate k (.dev .statusRd (.ok d)) } }
end

