-- ==== Sys2Proof/Laws/Bytes.lean ====
section
/-! SUPPORT. The laws of byte sequences as numbers (00_scope.md R4): `bytes_le_n` and `le_n` are inverse,
in either byte order. -/

namespace Sys2Proof.Machine

open Sys2Proof

@[simp] theorem bytesLE_length (n v : Nat) : (bytesLE n v).length = n := by
  induction n generalizing v with
  | zero => rfl
  | succ n ih => simp [bytesLE, ih]

@[simp] theorem bytesBE_length (n v : Nat) : (bytesBE n v).length = n := by simp [bytesBE]

@[simp] theorem bytesNative_length (o : ByteOrder) (n v : Nat) :
    (bytesNative o n v).length = n := by cases o <;> simp [bytesNative]

@[simp] theorem answerBytes_length (n d : Nat) : (answerBytes n d).length = n := by
  simp [answerBytes]

/-- Byte `j` of the bytes an answer carries. -/
theorem answerBytes_getElem? (n d j : Nat) (h : j < n) :
    (answerBytes n d)[j]? = some (dataByte d j) := by
  unfold answerBytes dataByte
  induction n generalizing d j with
  | zero => omega
  | succ n ih =>
    cases j with
    | zero => simp [bytesLE]
    | succ j =>
      rw [bytesLE, List.getElem?_cons_succ, ih _ _ (by omega), Nat.div_div_eq_div_mul, Nat.pow_succ']

/-- The bytes an answer carries, one by one. -/
theorem answerBytes_eq_map (n d : Nat) : answerBytes n d = (List.range n).map (dataByte d) := by
  refine List.ext_getElem? fun i => ?_
  by_cases h : i < n
  · rw [answerBytes_getElem? n d i h]
    simp [h]
  · rw [List.getElem?_eq_none (by simp; omega), List.getElem?_eq_none (by simp; omega)]

theorem leNat_bytesLE (n v : Nat) : leNat (bytesLE n v) = v % 256 ^ n := by
  induction n generalizing v with
  | zero => simp [bytesLE, leNat, Nat.mod_one]
  | succ n ih =>
    simp only [bytesLE, leNat, ih, BitVec.toNat_ofNat]
    rw [show 256 ^ (n + 1) = 2 ^ 8 * 256 ^ n by rw [Nat.pow_succ]; omega, Nat.mod_mul]
    norm_num

theorem bytesLE_leNat (b : List Byte) : bytesLE b.length (leNat b) = b := by
  induction b with
  | nil => rfl
  | cons x b ih =>
    have hx := x.isLt
    have hd : (x.toNat + 256 * leNat b) / 256 = leNat b := by omega
    have hm : BitVec.ofNat 8 (x.toNat + 256 * leNat b) = x := by
      apply BitVec.eq_of_toNat_eq
      simp only [BitVec.toNat_ofNat]
      omega
    simp only [List.length_cons, leNat, bytesLE, hd, hm, ih]

theorem leNat_lt (b : List Byte) : leNat b < 256 ^ b.length := by
  have := leNat_bytesLE b.length (leNat b)
  rw [bytesLE_leNat] at this
  rw [this]
  exact Nat.mod_lt _ (Nat.pow_pos (by omega))

/-- The data of an `OK` answer that carries the `n` bytes `b` is read back as `b`. -/
theorem answerBytes_leNat (b : List Byte) : answerBytes b.length (leNat b) = b := bytesLE_leNat b

theorem nativeNat_bytesNative (o : ByteOrder) (n v : Nat) :
    nativeNat o (bytesNative o n v) = v % 256 ^ n := by
  cases o <;> simp [nativeNat, bytesNative, beNat, bytesBE, leNat_bytesLE]

theorem bytesNative_nativeNat (o : ByteOrder) (b : List Byte) :
    bytesNative o b.length (nativeNat o b) = b := by
  cases o
  · exact bytesLE_leNat b
  · have := bytesLE_leNat b.reverse
    simp only [List.length_reverse] at this
    simp [bytesNative, bytesBE, nativeNat, beNat, this]

theorem nativeNat_lt (o : ByteOrder) (b : List Byte) : nativeNat o b < 256 ^ b.length := by
  cases o
  · exact leNat_lt b
  · simpa [nativeNat, beNat] using leNat_lt b.reverse

theorem record_length (o : ByteOrder) (i : BitVec 32) (t : BitVec 64) (c : List Byte) :
    (record o i t c).length = 12 + c.length := by simp [record]; omega

/-- One round of the timestamp loop (43_timestamp_extraction.md R190), as a number. -/
theorem shift_or_toNat (acc : BitVec 64) (b : Byte) (h : acc.toNat < 2 ^ 56) :
    ((acc <<< 8) ||| b.setWidth 64).toNat = acc.toNat * 256 + b.toNat := by
  have hb := b.isLt
  rw [BitVec.toNat_or, BitVec.toNat_shiftLeft, BitVec.toNat_setWidth, Nat.shiftLeft_eq,
    Nat.mod_eq_of_lt (by omega), Nat.mod_eq_of_lt (a := b.toNat) (by omega),
    Nat.mul_comm, ← Nat.two_pow_add_eq_or_of_lt hb]

/-- The meaningful bytes of a raw chunk: those after the artifact. -/
theorem drop_answerBytes (n d : Nat) :
    (answerBytes (n + 1) d).drop 1 = (List.range n).map fun j => dataByte d (j + 1) := by
  rw [answerBytes_eq_map, List.range_succ_eq_map]
  simp

end Sys2Proof.Machine
end

