-- ==== Sys2Proof/Laws/Cells.lean ====
section
/-! SUPPORT. The laws of cells and memories: what a write makes readable, what it leaves alone, and that
every operation keeps the canonical form. -/

namespace Sys2Proof.Machine

open Sys2Proof

variable {α : Type}

theorem readCell_append (m m' : List (Nat × α)) (a : Nat) :
    readCell (m ++ m') a = (readCell m a).or (readCell m' a) := by
  induction m with
  | nil => rfl
  | cons c m ih =>
    obtain ⟨k, v⟩ := c
    by_cases h : k = a <;> simp [readCell, h, ih]

theorem readCell_filter_of_true (p : Nat → Bool) (m : List (Nat × α)) (a : Nat) (h : p a = true) :
    readCell (m.filter fun c => p c.1) a = readCell m a := by
  induction m with
  | nil => rfl
  | cons c m ih =>
    obtain ⟨k, v⟩ := c
    by_cases hk : k = a
    · subst hk; simp [h, readCell]
    · by_cases hp : p k <;> simp [hp, readCell, hk, ih]

theorem readCell_filter_of_false (p : Nat → Bool) (m : List (Nat × α)) (a : Nat) (h : p a = false) :
    readCell (m.filter fun c => p c.1) a = none := by
  induction m with
  | nil => rfl
  | cons c m ih =>
    obtain ⟨k, v⟩ := c
    by_cases hp : p k
    · have : k ≠ a := by rintro rfl; simp [h] at hp
      simp [hp, readCell, this, ih]
    · simp [hp, ih]

theorem readCell_numberFrom_below (a b : Nat) (vs : List α) (h : b < a) :
    readCell (numberFrom a vs) b = none := by
  induction vs generalizing a with
  | nil => rfl
  | cons v vs ih => simp [numberFrom, readCell, Nat.ne_of_gt h, ih (a + 1) (by omega)]

theorem readCell_numberFrom (a i : Nat) (vs : List α) :
    readCell (numberFrom a vs) (a + i) = vs[i]? := by
  induction vs generalizing a i with
  | nil => simp [numberFrom, readCell]
  | cons v vs ih =>
    cases i with
    | zero => simp [numberFrom, readCell]
    | succ i =>
      have := ih (a + 1) i
      rw [show a + 1 + i = a + (i + 1) by omega] at this
      simp [numberFrom, readCell, this]

/-- A key inside the written range reads the value written there. -/
theorem readCell_writeCells_inside (m : List (Nat × α)) (a i : Nat) (vs : List α)
    (h : i < vs.length) : readCell (writeCells m a vs) (a + i) = vs[i]? := by
  have h₁ := readCell_filter_of_false (fun k => decide (k < a)) m (a + i) (by simp)
  simp only [writeCells, readCell_append, h₁, readCell_numberFrom, Option.none_or]
  simp [h]

/-- A key outside the written range reads as before. -/
theorem readCell_writeCells_outside (m : List (Nat × α)) (a b : Nat) (vs : List α)
    (h : b < a ∨ a + vs.length ≤ b) : readCell (writeCells m a vs) b = readCell m b := by
  have hmid : readCell (numberFrom a vs) b = none := by
    rcases h with h | h
    · exact readCell_numberFrom_below a b vs h
    · obtain ⟨i, rfl⟩ := Nat.exists_eq_add_of_le (Nat.le_trans (Nat.le_add_right a vs.length) h)
      rw [readCell_numberFrom]
      simp; omega
  simp only [writeCells, readCell_append, hmid, Option.or_none]
  rcases h with h | h
  · rw [readCell_filter_of_true (fun k => decide (k < a)) m b (by simp [h]),
        readCell_filter_of_false (fun k => decide (a + vs.length ≤ k)) m b (by simp; omega)]
    simp
  · rw [readCell_filter_of_false (fun k => decide (k < a)) m b (by simp; omega),
        readCell_filter_of_true (fun k => decide (a + vs.length ≤ k)) m b (by simp [h])]
    simp

/-- The keys of numbered cells. -/
theorem mem_numberFrom {a : Nat} {vs : List α} {c : Nat × α} (h : c ∈ numberFrom a vs) :
    a ≤ c.1 ∧ c.1 < a + vs.length := by
  induction vs generalizing a with
  | nil => simp [numberFrom] at h
  | cons v vs ih =>
    simp only [numberFrom, List.mem_cons] at h
    rcases h with rfl | h
    · simp
    · have := ih h; simp only [List.length_cons]; omega

theorem pairwise_numberFrom (a : Nat) (vs : List α) :
    (numberFrom a vs).Pairwise fun c d => c.1 < d.1 := by
  induction vs generalizing a with
  | nil => exact List.Pairwise.nil
  | cons v vs ih =>
    refine List.Pairwise.cons (fun c hc => ?_) (ih (a + 1))
    have := mem_numberFrom hc
    simp only; omega

/-- A write keeps the canonical form. -/
theorem cellsWf_writeCells (m : List (Nat × α)) (a : Nat) (vs : List α) (h : cellsWf m = true) :
    cellsWf (writeCells m a vs) = true := by
  simp only [cellsWf, decide_eq_true_eq] at h ⊢
  rw [writeCells, List.pairwise_append, List.pairwise_append]
  refine ⟨⟨h.sublist List.filter_sublist, pairwise_numberFrom a vs, ?_⟩,
    h.sublist List.filter_sublist, ?_⟩
  · intro c hc d hd
    have := mem_numberFrom hd
    simp at hc
    omega
  · intro c hc d hd
    simp only [List.mem_append] at hc
    simp only [List.mem_filter, decide_eq_true_eq] at hc hd
    rcases hc with hc | hc
    · omega
    · have := mem_numberFrom hc
      omega

@[simp] theorem cellsWf_nil : cellsWf ([] : List (Nat × α)) = true := rfl

/-- A write inside the space keeps a memory canonical and inside its space. -/
theorem Memory.wf_writeCells (size : Nat) (m : Memory) (a : Nat) (vs : List Byte)
    (h : Memory.wf size m = true) (hin : a + vs.length ≤ size) :
    Memory.wf size (writeCells m a vs) = true := by
  simp only [Memory.wf, Bool.and_eq_true, List.all_eq_true, decide_eq_true_eq] at h ⊢
  refine ⟨cellsWf_writeCells m a vs h.1, fun c hc => ?_⟩
  simp only [writeCells, List.mem_append, List.mem_filter] at hc
  rcases hc with (hc | hc) | hc
  · exact h.2 c hc.1
  · have := mem_numberFrom hc; omega
  · exact h.2 c hc.1

@[simp] theorem Memory.wf_nil (size : Nat) : Memory.wf size [] = true := rfl

@[simp] theorem zeros_length (n : Nat) : (zeros n).length = n := by simp [zeros]

theorem Memory.full_iff (size : Nat) (m : Memory) :
    Memory.full size m = true ↔ ∀ a < size, (readCell m a).isSome = true := by
  simp [Memory.full]

/-- A zero-filled byte reads zero. -/
theorem readCell_writeCells_zeros (m : Memory) (n a : Nat) (h : a < n) :
    readCell (writeCells m 0 (zeros n)) a = some 0#8 := by
  have := readCell_writeCells_inside m 0 a (zeros n) (by simpa using h)
  simpa [zeros, h] using this

/-- A zero-filled memory is filled. -/
theorem Memory.full_writeCells_zeros (n : Nat) (m : Memory) :
    Memory.full n (writeCells m 0 (zeros n)) = true := by
  rw [Memory.full_iff]
  intro a h
  simp [readCell_writeCells_zeros m n a h]

/-- A write keeps a filled memory filled. -/
theorem Memory.full_writeCells (size : Nat) (m : Memory) (a : Nat) (vs : List Byte)
    (h : Memory.full size m = true) : Memory.full size (writeCells m a vs) = true := by
  rw [Memory.full_iff] at h ⊢
  intro b hb
  by_cases hi : a ≤ b ∧ b < a + vs.length
  · obtain ⟨i, rfl⟩ := Nat.exists_eq_add_of_le hi.1
    rw [readCell_writeCells_inside m a i vs (by omega)]
    simp; omega
  · rw [readCell_writeCells_outside m a b vs (by omega)]
    exact h b hb

/-- `readCells` gives exactly the values at the keys of its range. -/
theorem readCells_eq_some {m : List (Nat × α)} {a n : Nat} {vs : List α} :
    readCells m a n = some vs ↔ vs.length = n ∧ ∀ i < n, readCell m (a + i) = vs[i]? := by
  induction n generalizing a vs with
  | zero =>
    simp only [readCells, Option.some.injEq, Nat.not_lt_zero, false_imp_iff, implies_true, and_true]
    rw [List.length_eq_zero_iff]
    exact eq_comm
  | succ n ih =>
    constructor
    · intro h
      rw [readCells] at h
      split at h
      · rename_i v ws hv hws
        obtain ⟨hlen, hcells⟩ := ih.1 hws
        cases h
        refine ⟨by simp [hlen], fun i hi => ?_⟩
        cases i with
        | zero => simpa using hv
        | succ i =>
          have := hcells i (by omega)
          rw [show a + 1 + i = a + (i + 1) by omega] at this
          simpa using this
      · simp at h
    · rintro ⟨hlen, hcells⟩
      cases vs with
      | nil => simp at hlen
      | cons v ws =>
        have hv := hcells 0 (by omega)
        have hws : readCells m (a + 1) n = some ws := ih.2 ⟨by simpa using hlen, fun i hi => by
          have := hcells (i + 1) (by omega)
          rw [show a + 1 + i = a + (i + 1) by omega]
          simpa using this⟩
        simp only [Nat.add_zero, List.getElem?_cons_zero] at hv
        rw [readCells, hv, hws]

/-- A range all of whose keys have a value can be read. -/
theorem readCells_isSome {m : List (Nat × α)} {a n : Nat}
    (h : ∀ i < n, (readCell m (a + i)).isSome = true) : ∃ vs, readCells m a n = some vs := by
  induction n generalizing a with
  | zero => exact ⟨[], rfl⟩
  | succ n ih =>
    obtain ⟨ws, hws⟩ := ih (a := a + 1) fun i hi => by
      rw [show a + 1 + i = a + (i + 1) by omega]
      exact h (i + 1) (by omega)
    obtain ⟨v, hv⟩ := Option.isSome_iff_exists.1 (h 0 (by omega))
    exact ⟨v :: ws, by simp only [Nat.add_zero] at hv; rw [readCells, hv, hws]⟩

/-- Reading back a range inside what has just been written. -/
theorem readCells_writeCells (m : List (Nat × α)) (a k n : Nat) (vs : List α)
    (h : k + n ≤ vs.length) :
    readCells (writeCells m a vs) (a + k) n = some ((vs.drop k).take n) := by
  rw [readCells_eq_some]
  refine ⟨by simp; omega, fun i hi => ?_⟩
  rw [Nat.add_assoc, readCell_writeCells_inside m a (k + i) vs (by omega)]
  simp [hi]

/-- Every range inside a filled memory can be read. -/
theorem readCells_of_full (size : Nat) (m : Memory) (h : Memory.full size m = true) (a n : Nat)
    (hin : a + n ≤ size) : ∃ bytes, readCells m a n = some bytes := by
  induction n generalizing a with
  | zero => exact ⟨[], rfl⟩
  | succ n ih =>
    obtain ⟨bytes, hb⟩ := ih (a + 1) (by omega)
    obtain ⟨v, hv⟩ := Option.isSome_iff_exists.1 ((Memory.full_iff _ _).1 h a (by omega))
    exact ⟨v :: bytes, by simp [readCells, hv, hb]⟩

end Sys2Proof.Machine
end

