-- ==== Sys2Proof/Laws/PerInstr.lean ====
section
/-! SUPPORT. What is said of every instruction as syntax, one lemma per constructor. -/

namespace Sys2Proof.Laws.EncodedCodeFits

open Sys2Proof

/-- The encoder gives an instruction the format of its row, a code that fits in the width of that
format, and no operands in format SEQ (30_encoding.md R99, R100, R107). -/
def Statement (i : Instr) : Prop :=
  (encode i).format = i.format ∧ (encode i).code.toNat < 2 ^ i.format.width ∧
    (i.format = .seq → (encode i).operands = [])

theorem arm : Statement .arm :=
  ⟨rfl, by decide, fun _ => rfl⟩

theorem stop : Statement .stop :=
  ⟨rfl, by decide, fun _ => rfl⟩

theorem poll : Statement .poll :=
  ⟨rfl, by decide, fun _ => rfl⟩

theorem clrGood : Statement .clrGood :=
  ⟨rfl, by decide, fun _ => rfl⟩

theorem rdLen : Statement .rdLen :=
  ⟨rfl, by decide, fun _ => rfl⟩

theorem rdFrame : Statement .rdFrame :=
  ⟨rfl, by decide, fun _ => rfl⟩

theorem xIdx : Statement .xIdx :=
  ⟨rfl, by decide, fun _ => rfl⟩

theorem rdTs : Statement .rdTs :=
  ⟨rfl, by decide, fun _ => rfl⟩

theorem accInit : Statement .accInit :=
  ⟨rfl, by decide, fun _ => rfl⟩

theorem accL : Statement .accL :=
  ⟨rfl, by decide, fun _ => rfl⟩

theorem accF : Statement .accF :=
  ⟨rfl, by decide, fun _ => rfl⟩

theorem frDiag : Statement .frDiag :=
  ⟨rfl, by decide, fun _ => rfl⟩

theorem serOpen : Statement .serOpen :=
  ⟨rfl, by decide, fun _ => rfl⟩

theorem serWr : Statement .serWr :=
  ⟨rfl, by decide, fun _ => rfl⟩

theorem count : Statement .count :=
  ⟨rfl, by decide, fun _ => rfl⟩

theorem clrErr : Statement .clrErr :=
  ⟨rfl, by decide, fun _ => rfl⟩

theorem rxRst : Statement .rxRst :=
  ⟨rfl, by decide, fun _ => rfl⟩

theorem reDiag : Statement .reDiag :=
  ⟨rfl, by decide, fun _ => rfl⟩

theorem statusRd : Statement .statusRd :=
  ⟨rfl, by decide, fun _ => rfl⟩

theorem statusClr (mask : Nat) : Statement (.statusClr mask) :=
  ⟨rfl, by simp [encode, Instr.format, Format.width], fun h => by cases h⟩

theorem rxEnable (mode : RxMode) : Statement (.rxEnable mode) :=
  ⟨rfl, by simp [encode, Instr.format, Format.width], fun h => by cases h⟩

theorem rxReset : Statement .rxReset :=
  ⟨rfl, by decide, fun _ => rfl⟩

theorem flenRd : Statement .flenRd :=
  ⟨rfl, by decide, fun _ => rfl⟩

theorem frameRd (len : Nat) : Statement (.frameRd len) :=
  ⟨rfl, by simp [encode, Instr.format, Format.width], fun h => by cases h⟩

theorem tsRd (variant : TsVariant) : Statement (.tsRd variant) :=
  ⟨rfl, by simp [encode, Instr.format, Format.width], fun h => by cases h⟩

theorem accRd (size offset : Nat) : Statement (.accRd size offset) :=
  ⟨rfl, by simp [encode, Instr.format, Format.width], fun h => by cases h⟩

theorem diagRd : Statement .diagRd :=
  ⟨rfl, by decide, fun _ => rfl⟩

theorem fileOpen (path : Path) : Statement (.fileOpen path) :=
  ⟨rfl, by simp [encode, Instr.format, Format.width], fun h => by cases h⟩

theorem fileWrite (path : Path) (bytes : List Byte) : Statement (.fileWrite path bytes) :=
  ⟨rfl, by simp [encode, Instr.format, Format.width], fun h => by cases h⟩

theorem start (cfg : Config) : Statement (.start cfg) :=
  ⟨rfl, by simp [encode, Instr.format, Format.width], fun h => by cases h⟩

theorem kill : Statement .kill :=
  ⟨rfl, by decide, fun _ => rfl⟩

end Sys2Proof.Laws.EncodedCodeFits
end

