-- ==== Sys2Proof/Laws/State.lean ====
section
/-! SUPPORT. One lemma per field per shared update of the state, true by computation, so that no later
proof unfolds a record update. -/

namespace Sys2Proof.Machine

open Sys2Proof

/-! ## `devAnswered` -/

@[simp] theorem State.devAnswered_seq (s : State) (c : DevCmd) (a : DevAnswer) (r : Answers DevAnswer) :
    (s.devAnswered c a r).seq = s.seq := rfl
@[simp] theorem State.devAnswered_frameLen (s : State) (c : DevCmd) (a : DevAnswer) (r : Answers DevAnswer) :
    (s.devAnswered c a r).frameLen = s.frameLen := rfl
@[simp] theorem State.devAnswered_frameIndex (s : State) (c : DevCmd) (a : DevAnswer) (r : Answers DevAnswer) :
    (s.devAnswered c a r).frameIndex = s.frameIndex := rfl
@[simp] theorem State.devAnswered_rxTs (s : State) (c : DevCmd) (a : DevAnswer) (r : Answers DevAnswer) :
    (s.devAnswered c a r).rxTs = s.rxTs := rfl
@[simp] theorem State.devAnswered_statusLatch (s : State) (c : DevCmd) (a : DevAnswer) (r : Answers DevAnswer) :
    (s.devAnswered c a r).statusLatch = s.statusLatch := rfl
@[simp] theorem State.devAnswered_diag (s : State) (c : DevCmd) (a : DevAnswer) (r : Answers DevAnswer) :
    (s.devAnswered c a r).diag = s.diag := rfl
@[simp] theorem State.devAnswered_frameCount (s : State) (c : DevCmd) (a : DevAnswer) (r : Answers DevAnswer) :
    (s.devAnswered c a r).frameCount = s.frameCount := rfl
@[simp] theorem State.devAnswered_remaining (s : State) (c : DevCmd) (a : DevAnswer) (r : Answers DevAnswer) :
    (s.devAnswered c a r).remaining = s.remaining := rfl
@[simp] theorem State.devAnswered_cursor (s : State) (c : DevCmd) (a : DevAnswer) (r : Answers DevAnswer) :
    (s.devAnswered c a r).cursor = s.cursor := rfl
@[simp] theorem State.devAnswered_curPath (s : State) (c : DevCmd) (a : DevAnswer) (r : Answers DevAnswer) :
    (s.devAnswered c a r).curPath = s.curPath := rfl
@[simp] theorem State.devAnswered_haltCause (s : State) (c : DevCmd) (a : DevAnswer) (r : Answers DevAnswer) :
    (s.devAnswered c a r).haltCause = s.haltCause := rfl
@[simp] theorem State.devAnswered_captureOk (s : State) (c : DevCmd) (a : DevAnswer) (r : Answers DevAnswer) :
    (s.devAnswered c a r).captureOk = s.captureOk := rfl
@[simp] theorem State.devAnswered_frameBuf (s : State) (c : DevCmd) (a : DevAnswer) (r : Answers DevAnswer) :
    (s.devAnswered c a r).frameBuf = s.frameBuf := rfl
@[simp] theorem State.devAnswered_cirBuf (s : State) (c : DevCmd) (a : DevAnswer) (r : Answers DevAnswer) :
    (s.devAnswered c a r).cirBuf = s.cirBuf := rfl
@[simp] theorem State.devAnswered_raw (s : State) (c : DevCmd) (a : DevAnswer) (r : Answers DevAnswer) :
    (s.devAnswered c a r).raw = s.raw := rfl
@[simp] theorem State.devAnswered_events (s : State) (c : DevCmd) (a : DevAnswer) (r : Answers DevAnswer) :
    (s.devAnswered c a r).events = s.events := rfl
@[simp] theorem State.devAnswered_files (s : State) (c : DevCmd) (a : DevAnswer) (r : Answers DevAnswer) :
    (s.devAnswered c a r).files = s.files := rfl
@[simp] theorem State.devAnswered_cfg (s : State) (c : DevCmd) (a : DevAnswer) (r : Answers DevAnswer) :
    (s.devAnswered c a r).cfg = s.cfg := rfl
@[simp] theorem State.devAnswered_started (s : State) (c : DevCmd) (a : DevAnswer) (r : Answers DevAnswer) :
    (s.devAnswered c a r).started = s.started := rfl
@[simp] theorem State.devAnswered_env_turns (s : State) (c : DevCmd) (a : DevAnswer) (r : Answers DevAnswer) :
    (s.devAnswered c a r).env.turns = s.env.turns := rfl
@[simp] theorem State.devAnswered_env_devAnswers (s : State) (c : DevCmd) (a : DevAnswer) (r : Answers DevAnswer) :
    (s.devAnswered c a r).env.devAnswers = r := rfl
@[simp] theorem State.devAnswered_env_sinkAnswers (s : State) (c : DevCmd) (a : DevAnswer) (r : Answers DevAnswer) :
    (s.devAnswered c a r).env.sinkAnswers = s.env.sinkAnswers := rfl
@[simp] theorem State.devAnswered_env_trace (s : State) (c : DevCmd) (a : DevAnswer) (r : Answers DevAnswer) :
    (s.devAnswered c a r).env.trace = s.env.trace ++ [.dev c a] := rfl

@[simp] theorem State.devAnswered_nextDev (s : State) (c : DevCmd) (a : DevAnswer) (r : Answers DevAnswer) :
    (s.devAnswered c a r).env.nextDev = r.pop freeDev := rfl
@[simp] theorem State.devAnswered_nextSink (s : State) (c : DevCmd) (a : DevAnswer) (r : Answers DevAnswer) :
    (s.devAnswered c a r).env.nextSink = s.env.nextSink := rfl

/-! ## `sinkAnswered` -/

@[simp] theorem State.sinkAnswered_seq (s : State) (c : SinkCmd) (a : SinkAnswer) (r : Answers SinkAnswer) :
    (s.sinkAnswered c a r).seq = s.seq := rfl
@[simp] theorem State.sinkAnswered_frameLen (s : State) (c : SinkCmd) (a : SinkAnswer) (r : Answers SinkAnswer) :
    (s.sinkAnswered c a r).frameLen = s.frameLen := rfl
@[simp] theorem State.sinkAnswered_frameIndex (s : State) (c : SinkCmd) (a : SinkAnswer) (r : Answers SinkAnswer) :
    (s.sinkAnswered c a r).frameIndex = s.frameIndex := rfl
@[simp] theorem State.sinkAnswered_rxTs (s : State) (c : SinkCmd) (a : SinkAnswer) (r : Answers SinkAnswer) :
    (s.sinkAnswered c a r).rxTs = s.rxTs := rfl
@[simp] theorem State.sinkAnswered_statusLatch (s : State) (c : SinkCmd) (a : SinkAnswer) (r : Answers SinkAnswer) :
    (s.sinkAnswered c a r).statusLatch = s.statusLatch := rfl
@[simp] theorem State.sinkAnswered_diag (s : State) (c : SinkCmd) (a : SinkAnswer) (r : Answers SinkAnswer) :
    (s.sinkAnswered c a r).diag = s.diag := rfl
@[simp] theorem State.sinkAnswered_frameCount (s : State) (c : SinkCmd) (a : SinkAnswer) (r : Answers SinkAnswer) :
    (s.sinkAnswered c a r).frameCount = s.frameCount := rfl
@[simp] theorem State.sinkAnswered_remaining (s : State) (c : SinkCmd) (a : SinkAnswer) (r : Answers SinkAnswer) :
    (s.sinkAnswered c a r).remaining = s.remaining := rfl
@[simp] theorem State.sinkAnswered_cursor (s : State) (c : SinkCmd) (a : SinkAnswer) (r : Answers SinkAnswer) :
    (s.sinkAnswered c a r).cursor = s.cursor := rfl
@[simp] theorem State.sinkAnswered_curPath (s : State) (c : SinkCmd) (a : SinkAnswer) (r : Answers SinkAnswer) :
    (s.sinkAnswered c a r).curPath = s.curPath := rfl
@[simp] theorem State.sinkAnswered_haltCause (s : State) (c : SinkCmd) (a : SinkAnswer) (r : Answers SinkAnswer) :
    (s.sinkAnswered c a r).haltCause = s.haltCause := rfl
@[simp] theorem State.sinkAnswered_captureOk (s : State) (c : SinkCmd) (a : SinkAnswer) (r : Answers SinkAnswer) :
    (s.sinkAnswered c a r).captureOk = s.captureOk := rfl
@[simp] theorem State.sinkAnswered_frameBuf (s : State) (c : SinkCmd) (a : SinkAnswer) (r : Answers SinkAnswer) :
    (s.sinkAnswered c a r).frameBuf = s.frameBuf := rfl
@[simp] theorem State.sinkAnswered_cirBuf (s : State) (c : SinkCmd) (a : SinkAnswer) (r : Answers SinkAnswer) :
    (s.sinkAnswered c a r).cirBuf = s.cirBuf := rfl
@[simp] theorem State.sinkAnswered_raw (s : State) (c : SinkCmd) (a : SinkAnswer) (r : Answers SinkAnswer) :
    (s.sinkAnswered c a r).raw = s.raw := rfl
@[simp] theorem State.sinkAnswered_events (s : State) (c : SinkCmd) (a : SinkAnswer) (r : Answers SinkAnswer) :
    (s.sinkAnswered c a r).events = s.events := rfl
@[simp] theorem State.sinkAnswered_files (s : State) (c : SinkCmd) (a : SinkAnswer) (r : Answers SinkAnswer) :
    (s.sinkAnswered c a r).files = storeEffect c a s.files := rfl
@[simp] theorem State.sinkAnswered_cfg (s : State) (c : SinkCmd) (a : SinkAnswer) (r : Answers SinkAnswer) :
    (s.sinkAnswered c a r).cfg = s.cfg := rfl
@[simp] theorem State.sinkAnswered_started (s : State) (c : SinkCmd) (a : SinkAnswer) (r : Answers SinkAnswer) :
    (s.sinkAnswered c a r).started = s.started := rfl
@[simp] theorem State.sinkAnswered_env_turns (s : State) (c : SinkCmd) (a : SinkAnswer) (r : Answers SinkAnswer) :
    (s.sinkAnswered c a r).env.turns = s.env.turns := rfl
@[simp] theorem State.sinkAnswered_env_devAnswers (s : State) (c : SinkCmd) (a : SinkAnswer) (r : Answers SinkAnswer) :
    (s.sinkAnswered c a r).env.devAnswers = s.env.devAnswers := rfl
@[simp] theorem State.sinkAnswered_env_sinkAnswers (s : State) (c : SinkCmd) (a : SinkAnswer) (r : Answers SinkAnswer) :
    (s.sinkAnswered c a r).env.sinkAnswers = r := rfl
@[simp] theorem State.sinkAnswered_env_trace (s : State) (c : SinkCmd) (a : SinkAnswer) (r : Answers SinkAnswer) :
    (s.sinkAnswered c a r).env.trace = s.env.trace ++ [.sink c a] := rfl

@[simp] theorem State.sinkAnswered_nextDev (s : State) (c : SinkCmd) (a : SinkAnswer) (r : Answers SinkAnswer) :
    (s.sinkAnswered c a r).env.nextDev = s.env.nextDev := rfl
@[simp] theorem State.sinkAnswered_nextSink (s : State) (c : SinkCmd) (a : SinkAnswer) (r : Answers SinkAnswer) :
    (s.sinkAnswered c a r).env.nextSink = r.pop freeSink := rfl

/-! ## `withTurns` -/

@[simp] theorem State.withTurns_seq (s : State) (ts : List Turn) :
    (s.withTurns ts).seq = s.seq := rfl
@[simp] theorem State.withTurns_frameLen (s : State) (ts : List Turn) :
    (s.withTurns ts).frameLen = s.frameLen := rfl
@[simp] theorem State.withTurns_frameIndex (s : State) (ts : List Turn) :
    (s.withTurns ts).frameIndex = s.frameIndex := rfl
@[simp] theorem State.withTurns_rxTs (s : State) (ts : List Turn) :
    (s.withTurns ts).rxTs = s.rxTs := rfl
@[simp] theorem State.withTurns_statusLatch (s : State) (ts : List Turn) :
    (s.withTurns ts).statusLatch = s.statusLatch := rfl
@[simp] theorem State.withTurns_diag (s : State) (ts : List Turn) :
    (s.withTurns ts).diag = s.diag := rfl
@[simp] theorem State.withTurns_frameCount (s : State) (ts : List Turn) :
    (s.withTurns ts).frameCount = s.frameCount := rfl
@[simp] theorem State.withTurns_remaining (s : State) (ts : List Turn) :
    (s.withTurns ts).remaining = s.remaining := rfl
@[simp] theorem State.withTurns_cursor (s : State) (ts : List Turn) :
    (s.withTurns ts).cursor = s.cursor := rfl
@[simp] theorem State.withTurns_curPath (s : State) (ts : List Turn) :
    (s.withTurns ts).curPath = s.curPath := rfl
@[simp] theorem State.withTurns_haltCause (s : State) (ts : List Turn) :
    (s.withTurns ts).haltCause = s.haltCause := rfl
@[simp] theorem State.withTurns_captureOk (s : State) (ts : List Turn) :
    (s.withTurns ts).captureOk = s.captureOk := rfl
@[simp] theorem State.withTurns_frameBuf (s : State) (ts : List Turn) :
    (s.withTurns ts).frameBuf = s.frameBuf := rfl
@[simp] theorem State.withTurns_cirBuf (s : State) (ts : List Turn) :
    (s.withTurns ts).cirBuf = s.cirBuf := rfl
@[simp] theorem State.withTurns_raw (s : State) (ts : List Turn) :
    (s.withTurns ts).raw = s.raw := rfl
@[simp] theorem State.withTurns_events (s : State) (ts : List Turn) :
    (s.withTurns ts).events = s.events := rfl
@[simp] theorem State.withTurns_files (s : State) (ts : List Turn) :
    (s.withTurns ts).files = s.files := rfl
@[simp] theorem State.withTurns_cfg (s : State) (ts : List Turn) :
    (s.withTurns ts).cfg = s.cfg := rfl
@[simp] theorem State.withTurns_started (s : State) (ts : List Turn) :
    (s.withTurns ts).started = s.started := rfl
@[simp] theorem State.withTurns_env_turns (s : State) (ts : List Turn) :
    (s.withTurns ts).env.turns = ts := rfl
@[simp] theorem State.withTurns_env_devAnswers (s : State) (ts : List Turn) :
    (s.withTurns ts).env.devAnswers = s.env.devAnswers := rfl
@[simp] theorem State.withTurns_env_sinkAnswers (s : State) (ts : List Turn) :
    (s.withTurns ts).env.sinkAnswers = s.env.sinkAnswers := rfl
@[simp] theorem State.withTurns_env_trace (s : State) (ts : List Turn) :
    (s.withTurns ts).env.trace = s.env.trace := rfl

@[simp] theorem State.withTurns_nextDev (s : State) (ts : List Turn) :
    (s.withTurns ts).env.nextDev = s.env.nextDev := rfl
@[simp] theorem State.withTurns_nextSink (s : State) (ts : List Turn) :
    (s.withTurns ts).env.nextSink = s.env.nextSink := rfl

/-! ## `zeroFill` -/

@[simp] theorem State.zeroFill_seq (s : State) :
    s.zeroFill.seq = s.seq := rfl
@[simp] theorem State.zeroFill_frameLen (s : State) :
    s.zeroFill.frameLen = s.frameLen := rfl
@[simp] theorem State.zeroFill_frameIndex (s : State) :
    s.zeroFill.frameIndex = s.frameIndex := rfl
@[simp] theorem State.zeroFill_rxTs (s : State) :
    s.zeroFill.rxTs = s.rxTs := rfl
@[simp] theorem State.zeroFill_statusLatch (s : State) :
    s.zeroFill.statusLatch = s.statusLatch := rfl
@[simp] theorem State.zeroFill_diag (s : State) :
    s.zeroFill.diag = s.diag := rfl
@[simp] theorem State.zeroFill_frameCount (s : State) :
    s.zeroFill.frameCount = s.frameCount := rfl
@[simp] theorem State.zeroFill_remaining (s : State) :
    s.zeroFill.remaining = s.remaining := rfl
@[simp] theorem State.zeroFill_cursor (s : State) :
    s.zeroFill.cursor = s.cursor := rfl
@[simp] theorem State.zeroFill_curPath (s : State) :
    s.zeroFill.curPath = s.curPath := rfl
@[simp] theorem State.zeroFill_haltCause (s : State) :
    s.zeroFill.haltCause = s.haltCause := rfl
@[simp] theorem State.zeroFill_captureOk (s : State) :
    s.zeroFill.captureOk = s.captureOk := rfl
@[simp] theorem State.zeroFill_frameBuf (s : State) :
    s.zeroFill.frameBuf = writeCells s.frameBuf 0 (zeros s.cfg.frameCap) := rfl
@[simp] theorem State.zeroFill_cirBuf (s : State) :
    s.zeroFill.cirBuf = writeCells s.cirBuf 0 (zeros s.cfg.cirLen) := rfl
@[simp] theorem State.zeroFill_raw (s : State) :
    s.zeroFill.raw = s.raw := rfl
@[simp] theorem State.zeroFill_events (s : State) :
    s.zeroFill.events = s.events := rfl
@[simp] theorem State.zeroFill_files (s : State) :
    s.zeroFill.files = s.files := rfl
@[simp] theorem State.zeroFill_cfg (s : State) :
    s.zeroFill.cfg = s.cfg := rfl
@[simp] theorem State.zeroFill_started (s : State) :
    s.zeroFill.started = s.started := rfl
@[simp] theorem State.zeroFill_env (s : State) :
    s.zeroFill.env = s.env := rfl

/-! ## `setSpace` -/

@[simp] theorem State.setSpace_seq (s : State) (sp : Space) (m : Memory) :
    (s.setSpace sp m).seq = s.seq := by cases sp <;> rfl
@[simp] theorem State.setSpace_frameLen (s : State) (sp : Space) (m : Memory) :
    (s.setSpace sp m).frameLen = s.frameLen := by cases sp <;> rfl
@[simp] theorem State.setSpace_frameIndex (s : State) (sp : Space) (m : Memory) :
    (s.setSpace sp m).frameIndex = s.frameIndex := by cases sp <;> rfl
@[simp] theorem State.setSpace_rxTs (s : State) (sp : Space) (m : Memory) :
    (s.setSpace sp m).rxTs = s.rxTs := by cases sp <;> rfl
@[simp] theorem State.setSpace_statusLatch (s : State) (sp : Space) (m : Memory) :
    (s.setSpace sp m).statusLatch = s.statusLatch := by cases sp <;> rfl
@[simp] theorem State.setSpace_diag (s : State) (sp : Space) (m : Memory) :
    (s.setSpace sp m).diag = s.diag := by cases sp <;> rfl
@[simp] theorem State.setSpace_frameCount (s : State) (sp : Space) (m : Memory) :
    (s.setSpace sp m).frameCount = s.frameCount := by cases sp <;> rfl
@[simp] theorem State.setSpace_remaining (s : State) (sp : Space) (m : Memory) :
    (s.setSpace sp m).remaining = s.remaining := by cases sp <;> rfl
@[simp] theorem State.setSpace_cursor (s : State) (sp : Space) (m : Memory) :
    (s.setSpace sp m).cursor = s.cursor := by cases sp <;> rfl
@[simp] theorem State.setSpace_curPath (s : State) (sp : Space) (m : Memory) :
    (s.setSpace sp m).curPath = s.curPath := by cases sp <;> rfl
@[simp] theorem State.setSpace_haltCause (s : State) (sp : Space) (m : Memory) :
    (s.setSpace sp m).haltCause = s.haltCause := by cases sp <;> rfl
@[simp] theorem State.setSpace_captureOk (s : State) (sp : Space) (m : Memory) :
    (s.setSpace sp m).captureOk = s.captureOk := by cases sp <;> rfl
@[simp] theorem State.setSpace_events (s : State) (sp : Space) (m : Memory) :
    (s.setSpace sp m).events = s.events := by cases sp <;> rfl
@[simp] theorem State.setSpace_files (s : State) (sp : Space) (m : Memory) :
    (s.setSpace sp m).files = s.files := by cases sp <;> rfl
@[simp] theorem State.setSpace_cfg (s : State) (sp : Space) (m : Memory) :
    (s.setSpace sp m).cfg = s.cfg := by cases sp <;> rfl
@[simp] theorem State.setSpace_started (s : State) (sp : Space) (m : Memory) :
    (s.setSpace sp m).started = s.started := by cases sp <;> rfl
@[simp] theorem State.setSpace_env (s : State) (sp : Space) (m : Memory) :
    (s.setSpace sp m).env = s.env := by cases sp <;> rfl
@[simp] theorem State.setSpace_fb_frameBuf (s : State) (m : Memory) :
    (s.setSpace .fb m).frameBuf = m := rfl
@[simp] theorem State.setSpace_fb_cirBuf (s : State) (m : Memory) :
    (s.setSpace .fb m).cirBuf = s.cirBuf := rfl
@[simp] theorem State.setSpace_fb_raw (s : State) (m : Memory) :
    (s.setSpace .fb m).raw = s.raw := rfl
@[simp] theorem State.setSpace_cb_frameBuf (s : State) (m : Memory) :
    (s.setSpace .cb m).frameBuf = s.frameBuf := rfl
@[simp] theorem State.setSpace_cb_cirBuf (s : State) (m : Memory) :
    (s.setSpace .cb m).cirBuf = m := rfl
@[simp] theorem State.setSpace_cb_raw (s : State) (m : Memory) :
    (s.setSpace .cb m).raw = s.raw := rfl
@[simp] theorem State.setSpace_raw_frameBuf (s : State) (m : Memory) :
    (s.setSpace .raw m).frameBuf = s.frameBuf := rfl
@[simp] theorem State.setSpace_raw_cirBuf (s : State) (m : Memory) :
    (s.setSpace .raw m).cirBuf = s.cirBuf := rfl
@[simp] theorem State.setSpace_raw_raw (s : State) (m : Memory) :
    (s.setSpace .raw m).raw = m := rfl
@[simp] theorem State.space_setSpace (s : State) (sp : Space) (m : Memory) :
    (s.setSpace sp m).space sp = m := by cases sp <;> rfl
theorem State.space_setSpace_ne (s : State) (sp sq : Space) (m : Memory) (h : sq ≠ sp) :
    (s.setSpace sp m).space sq = s.space sq := by cases sp <;> cases sq <;> first | rfl | exact absurd rfl h
@[simp] theorem State.space_fb (s : State) :
    s.space .fb = s.frameBuf := rfl
@[simp] theorem State.space_cb (s : State) :
    s.space .cb = s.cirBuf := rfl
@[simp] theorem State.space_raw (s : State) :
    s.space .raw = s.raw := rfl
@[simp] theorem Space.size_fb (c : Config) :
    Space.size c .fb = c.frameCap := rfl
@[simp] theorem Space.size_cb (c : Config) :
    Space.size c .cb = c.cirLen := rfl
@[simp] theorem Space.size_raw (c : Config) :
    Space.size c .raw = c.chunk + 1 := rfl

/-! ## `raise` -/

@[simp] theorem raise_frameLen (c : Condition) (s : State) :
    (raise c s).frameLen = s.frameLen := by cases c <;> rfl
@[simp] theorem raise_frameIndex (c : Condition) (s : State) :
    (raise c s).frameIndex = s.frameIndex := by cases c <;> rfl
@[simp] theorem raise_rxTs (c : Condition) (s : State) :
    (raise c s).rxTs = s.rxTs := by cases c <;> rfl
@[simp] theorem raise_statusLatch (c : Condition) (s : State) :
    (raise c s).statusLatch = s.statusLatch := by cases c <;> rfl
@[simp] theorem raise_diag (c : Condition) (s : State) :
    (raise c s).diag = s.diag := by cases c <;> rfl
@[simp] theorem raise_frameCount (c : Condition) (s : State) :
    (raise c s).frameCount = s.frameCount := by cases c <;> rfl
@[simp] theorem raise_remaining (c : Condition) (s : State) :
    (raise c s).remaining = s.remaining := by cases c <;> rfl
@[simp] theorem raise_cursor (c : Condition) (s : State) :
    (raise c s).cursor = s.cursor := by cases c <;> rfl
@[simp] theorem raise_curPath (c : Condition) (s : State) :
    (raise c s).curPath = s.curPath := by cases c <;> rfl
@[simp] theorem raise_frameBuf (c : Condition) (s : State) :
    (raise c s).frameBuf = s.frameBuf := by cases c <;> rfl
@[simp] theorem raise_cirBuf (c : Condition) (s : State) :
    (raise c s).cirBuf = s.cirBuf := by cases c <;> rfl
@[simp] theorem raise_raw (c : Condition) (s : State) :
    (raise c s).raw = s.raw := by cases c <;> rfl
@[simp] theorem raise_files (c : Condition) (s : State) :
    (raise c s).files = s.files := by cases c <;> rfl
@[simp] theorem raise_cfg (c : Condition) (s : State) :
    (raise c s).cfg = s.cfg := by cases c <;> rfl
@[simp] theorem raise_started (c : Condition) (s : State) :
    (raise c s).started = s.started := by cases c <;> rfl
@[simp] theorem raise_env (c : Condition) (s : State) :
    (raise c s).env = s.env := by cases c <;> rfl
@[simp] theorem raise_oversizedFrame_seq (n : Nat) (s : State) :
    (raise (.oversizedFrame n) s).seq = .frDiag := rfl
@[simp] theorem raise_oversizedFrame_captureOk (n : Nat) (s : State) :
    (raise (.oversizedFrame n) s).captureOk = s.captureOk := rfl
@[simp] theorem raise_oversizedFrame_events (n : Nat) (s : State) :
    (raise (.oversizedFrame n) s).events = s.events := rfl
@[simp] theorem raise_oversizedFrame_haltCause (n : Nat) (s : State) :
    (raise (.oversizedFrame n) s).haltCause = s.haltCause := rfl
@[simp] theorem raise_rxError_seq (n : Nat) (s : State) :
    (raise (.rxError n) s).seq = .reClr := rfl
@[simp] theorem raise_rxError_captureOk (n : Nat) (s : State) :
    (raise (.rxError n) s).captureOk = s.captureOk := rfl
@[simp] theorem raise_rxError_events (n : Nat) (s : State) :
    (raise (.rxError n) s).events = s.events := rfl
@[simp] theorem raise_rxError_haltCause (n : Nat) (s : State) :
    (raise (.rxError n) s).haltCause = s.haltCause := rfl
@[simp] theorem raise_chunkReadFailure_seq (n : Nat) (s : State) :
    (raise (.chunkReadFailure n) s).seq = .frDiag := rfl
@[simp] theorem raise_chunkReadFailure_captureOk (n : Nat) (s : State) :
    (raise (.chunkReadFailure n) s).captureOk = false := rfl
@[simp] theorem raise_chunkReadFailure_events (n : Nat) (s : State) :
    (raise (.chunkReadFailure n) s).events = s.events := rfl
@[simp] theorem raise_chunkReadFailure_haltCause (n : Nat) (s : State) :
    (raise (.chunkReadFailure n) s).haltCause = s.haltCause := rfl
@[simp] theorem raise_fileOpenFailure_seq (p : Path) (s : State) :
    (raise (.fileOpenFailure p) s).seq = .idle := rfl
@[simp] theorem raise_fileOpenFailure_captureOk (p : Path) (s : State) :
    (raise (.fileOpenFailure p) s).captureOk = s.captureOk := rfl
@[simp] theorem raise_fileOpenFailure_events (p : Path) (s : State) :
    (raise (.fileOpenFailure p) s).events = s.events ++ [.logOpenFail p] := rfl
@[simp] theorem raise_fileOpenFailure_haltCause (p : Path) (s : State) :
    (raise (.fileOpenFailure p) s).haltCause = s.haltCause := rfl
@[simp] theorem raise_fileWriteFailure_seq (p : Path) (s : State) :
    (raise (.fileWriteFailure p) s).seq = .idle := rfl
@[simp] theorem raise_fileWriteFailure_captureOk (p : Path) (s : State) :
    (raise (.fileWriteFailure p) s).captureOk = s.captureOk := rfl
@[simp] theorem raise_fileWriteFailure_events (p : Path) (s : State) :
    (raise (.fileWriteFailure p) s).events = s.events ++ [.logWriteFail p] := rfl
@[simp] theorem raise_fileWriteFailure_haltCause (p : Path) (s : State) :
    (raise (.fileWriteFailure p) s).haltCause = s.haltCause := rfl
@[simp] theorem raise_deviceIoFatal_seq (d : DevName) (s : State) :
    (raise (.deviceIoFatal d) s).seq = .halt := rfl
@[simp] theorem raise_deviceIoFatal_captureOk (d : DevName) (s : State) :
    (raise (.deviceIoFatal d) s).captureOk = s.captureOk := rfl
@[simp] theorem raise_deviceIoFatal_events (d : DevName) (s : State) :
    (raise (.deviceIoFatal d) s).events = s.events := rfl
@[simp] theorem raise_deviceIoFatal_haltCause (d : DevName) (s : State) :
    (raise (.deviceIoFatal d) s).haltCause = some (.deviceIoFatal d) := rfl
@[simp] theorem raise_illegalSeq_seq (w : BitVec 8) (s : State) :
    (raise (.illegalSeq w) s).seq = .halt := rfl
@[simp] theorem raise_illegalSeq_captureOk (w : BitVec 8) (s : State) :
    (raise (.illegalSeq w) s).captureOk = s.captureOk := rfl
@[simp] theorem raise_illegalSeq_events (w : BitVec 8) (s : State) :
    (raise (.illegalSeq w) s).events = s.events := rfl
@[simp] theorem raise_illegalSeq_haltCause (w : BitVec 8) (s : State) :
    (raise (.illegalSeq w) s).haltCause = some (.illegalSeq w) := rfl

/-! ## `afterStart` -/

@[simp] theorem State.afterStart_seq (c : Config) (e : Env) :
    (State.afterStart c e).seq = .idle := rfl
@[simp] theorem State.afterStart_frameCount (c : Config) (e : Env) :
    (State.afterStart c e).frameCount = 0 := rfl
@[simp] theorem State.afterStart_haltCause (c : Config) (e : Env) :
    (State.afterStart c e).haltCause = none := rfl
@[simp] theorem State.afterStart_captureOk (c : Config) (e : Env) :
    (State.afterStart c e).captureOk = false := rfl
@[simp] theorem State.afterStart_events (c : Config) (e : Env) :
    (State.afterStart c e).events = [] := rfl
@[simp] theorem State.afterStart_files (c : Config) (e : Env) :
    (State.afterStart c e).files = [] := rfl
@[simp] theorem State.afterStart_cfg (c : Config) (e : Env) :
    (State.afterStart c e).cfg = c := rfl
@[simp] theorem State.afterStart_started (c : Config) (e : Env) :
    (State.afterStart c e).started = true := rfl
@[simp] theorem State.afterStart_frameBuf (c : Config) (e : Env) :
    (State.afterStart c e).frameBuf = [] := rfl
@[simp] theorem State.afterStart_cirBuf (c : Config) (e : Env) :
    (State.afterStart c e).cirBuf = [] := rfl
@[simp] theorem State.afterStart_raw (c : Config) (e : Env) :
    (State.afterStart c e).raw = [] := rfl

end Sys2Proof.Machine
end

