-- ==== Sys2Proof/Laws/Transactions.lean ====
section
/-! SUPPORT. What each shared operation can do, said once: the answers to come, memory accesses,
transactions, one chunk read, the path of a frame. -/

namespace Sys2Proof.Machine

open Sys2Proof

/-! ## The answers to come -/

@[simp] theorem Answers.pop_listed {α : Type} (free : Nat → α) (a : α) (r : List α) (t : Tail α) :
    (Answers.mk (a :: r) t).pop free = some (a, ⟨r, t⟩) := rfl
@[simp] theorem Answers.pop_never {α : Type} (free : Nat → α) :
    (Answers.mk [] .never).pop free = none := rfl
@[simp] theorem Answers.pop_cycle {α : Type} (free : Nat → α) (a : α) (r : List α) :
    (Answers.mk [] (.cycle a r)).pop free = some (a, ⟨r, .cycle a r⟩) := rfl
@[simp] theorem Answers.pop_free {α : Type} (free : Nat → α) (k : Nat) :
    (Answers.mk [] (.free k)).pop free = some (free k, ⟨[], .free (k + 1)⟩) := rfl

@[simp] theorem Answers.take_zero {α : Type} (free : Nat → α) (as : Answers α) :
    as.take free 0 = [] := rfl
@[simp] theorem Answers.drop_zero {α : Type} (free : Nat → α) (as : Answers α) :
    as.drop free 0 = as := rfl

theorem Answers.take_of_none {α : Type} {free : Nat → α} {as : Answers α} (n : Nat)
    (h : as.pop free = none) : as.take free n = [] := by cases n <;> simp [Answers.take, h]

theorem Answers.take_of_some {α : Type} {free : Nat → α} {as r : Answers α} {a : α} (n : Nat)
    (h : as.pop free = some (a, r)) : as.take free (n + 1) = a :: r.take free n := by
  simp [Answers.take, h]

theorem Answers.drop_of_some {α : Type} {free : Nat → α} {as r : Answers α} {a : α} (n : Nat)
    (h : as.pop free = some (a, r)) : as.drop free (n + 1) = r.drop free n := by
  simp [Answers.drop, h]

/-- When the next answers begin with `a`, the next one is `a`. -/
theorem Answers.take_eq_cons {α : Type} {free : Nat → α} {as : Answers α} {a : α} {l : List α}
    {n : Nat} (h : as.take free (n + 1) = a :: l) :
    ∃ r, as.pop free = some (a, r) ∧ r.take free n = l := by
  cases hp : as.pop free with
  | none => rw [Answers.take_of_none _ hp] at h; cases h
  | some x => rw [Answers.take_of_some n hp] at h; cases h; exact ⟨x.2, rfl, rfl⟩

/-- Answers whose listed ones are followed by something never end. -/
theorem Answers.take_length {α : Type} (free : Nat → α) (t : Tail α) (ht : t ≠ .never) (n : Nat) :
    ∀ l, ((Answers.mk l t).take free n).length = n := by
  induction n generalizing t with
  | zero => intro l; rfl
  | succ n ih =>
    rintro (_ | ⟨a, r⟩)
    · cases t with
      | never => exact absurd rfl ht
      | cycle a r => rw [Answers.take_of_some n (Answers.pop_cycle free a r)]; simp [ih _ ht]
      | free k => rw [Answers.take_of_some n (Answers.pop_free free k)]; simp [ih (.free (k + 1)) (fun h => nomatch h)]
    · rw [Answers.take_of_some n (Answers.pop_listed free a r t)]; simp [ih _ ht]

/-! ## The path of a frame -/

/-- A listed point has its listed path. -/
theorem pathAt_listed {f : PathFunction} {expId : String} {index : BitVec 32} {p : Path}
    (h : lookupPath f.listed expId index = some p) : pathAt f expId index = p := by
  simp [pathAt, h]

/-- A point that is not listed has the free path. -/
theorem pathAt_unlisted {f : PathFunction} {expId : String} {index : BitVec 32}
    (h : lookupPath f.listed expId index = none) :
    pathAt f expId index = Config.freePath f.rest expId index := by simp [pathAt, h]

/-- The points of one identifier, listed from a function, have that function's paths. -/
theorem lookupPath_map (f : BitVec 32 → Path) (expId : String) (i : BitVec 32) :
    ∀ l : List (BitVec 32), i ∈ l →
      lookupPath (l.map fun j => ⟨expId, j, f j⟩) expId i = some (f i)
  | j :: l, h => by
    by_cases hj : j = i
    · simp [lookupPath, hj]
    · have := lookupPath_map f expId i l (by simpa [Ne.symm hj] using h)
      simp [lookupPath, hj, this]

/-! ## The three answers of a device command -/

theorem withDev_unanswered {c : DevCmd} {s : State} {f : State → Out} {g : Nat → State → Out}
    (h : s.env.nextDev = none) : withDev c s f g = .next s := by simp [withDev, h]

theorem withDev_fail {c : DevCmd} {s : State} {f : State → Out} {g : Nat → State → Out}
    {r : Answers DevAnswer} (h : s.env.nextDev = some (.fail, r)) :
    withDev c s f g = f (s.devAnswered c .fail r) := by simp [withDev, h]

theorem withDev_ok {c : DevCmd} {s : State} {f : State → Out} {g : Nat → State → Out}
    {d : Nat} {r : Answers DevAnswer} (h : s.env.nextDev = some (.ok d, r)) :
    withDev c s f g = g d (s.devAnswered c (.ok d) r) := by simp [withDev, h]

/-- A device command ends in one of three ways. -/
theorem withDev_cases (c : DevCmd) (s : State) (f : State → Out) (g : Nat → State → Out) :
    (s.env.nextDev = none ∧ withDev c s f g = .next s) ∨
    (∃ r, s.env.nextDev = some (.fail, r) ∧ withDev c s f g = f (s.devAnswered c .fail r)) ∨
    (∃ d r, s.env.nextDev = some (.ok d, r) ∧
      withDev c s f g = g d (s.devAnswered c (.ok d) r)) := by
  rcases h : s.env.nextDev with _ | ⟨_ | d, r⟩
  · exact .inl ⟨rfl, withDev_unanswered h⟩
  · exact .inr (.inl ⟨r, rfl, withDev_fail h⟩)
  · exact .inr (.inr ⟨d, r, rfl, withDev_ok h⟩)

/-- A device command whose failure is the hard stop ends in one of three ways. -/
theorem withDevOrHalt_cases (c : DevCmd) (s : State) (g : Nat → State → Out) :
    (s.env.nextDev = none ∧ withDevOrHalt c s g = .next s) ∨
    (∃ r, s.env.nextDev = some (.fail, r) ∧
      withDevOrHalt c s g =
        .next (raise (.deviceIoFatal (devName c)) (s.devAnswered c .fail r))) ∨
    (∃ d r, s.env.nextDev = some (.ok d, r) ∧
      withDevOrHalt c s g = g d (s.devAnswered c (.ok d) r)) :=
  withDev_cases c s _ g

theorem withDevOrHalt_ok {c : DevCmd} {s : State} {g : Nat → State → Out} {d : Nat}
    {r : Answers DevAnswer} (h : s.env.nextDev = some (.ok d, r)) :
    withDevOrHalt c s g = g d (s.devAnswered c (.ok d) r) := withDev_ok h

/-- A device command by itself always gives a next state, which differs in the environment only. -/
theorem devCommand_next (c : DevCmd) (s : State) :
    ∃ t, devCommand c s = .next t ∧ (t = s ∨ ∃ a r, s.env.nextDev = some (a, r) ∧ t = s.devAnswered c a r) := by
  rcases withDev_cases c s (fun t => .next t) (fun _ t => .next t) with
    ⟨_, h⟩ | ⟨r, hs, h⟩ | ⟨d, r, hs, h⟩
  · exact ⟨s, h, .inl rfl⟩
  · exact ⟨_, h, .inr ⟨_, r, hs, rfl⟩⟩
  · exact ⟨_, h, .inr ⟨_, r, hs, rfl⟩⟩

/-! ## The three answers of a store command -/

/-- A store command ends in one of three ways. -/
theorem withSink_cases (c : SinkCmd) (s : State) (f g : State → Out) :
    (s.env.nextSink = none ∧ withSink c s f g = .next s) ∨
    (∃ r, s.env.nextSink = some (.fail, r) ∧ withSink c s f g = f (s.sinkAnswered c .fail r)) ∨
    (∃ r, s.env.nextSink = some (.ok, r) ∧ withSink c s f g = g (s.sinkAnswered c .ok r)) := by
  rcases h : s.env.nextSink with _ | ⟨_ | _, r⟩
  · exact .inl ⟨rfl, by simp [withSink, h]⟩
  · exact .inr (.inl ⟨r, rfl, by simp [withSink, h]⟩)
  · exact .inr (.inr ⟨r, rfl, by simp [withSink, h]⟩)

/-- A store command by itself always gives a next state, which differs in the environment and the
store only. -/
theorem sinkCommand_next (c : SinkCmd) (s : State) :
    ∃ t, sinkCommand c s = .next t ∧
      (t = s ∨ ∃ a r, s.env.nextSink = some (a, r) ∧ t = s.sinkAnswered c a r) := by
  rcases withSink_cases c s (fun t => .next t) (fun t => .next t) with
    ⟨_, h⟩ | ⟨r, hs, h⟩ | ⟨r, hs, h⟩
  · exact ⟨s, h, .inl rfl⟩
  · exact ⟨_, h, .inr ⟨_, r, hs, rfl⟩⟩
  · exact ⟨_, h, .inr ⟨_, r, hs, rfl⟩⟩

/-- The store keeps its canonical form. -/
theorem cellsWf_storeEffect (c : SinkCmd) (a : SinkAnswer) (fs : FileStore)
    (h : cellsWf fs = true) : cellsWf (storeEffect c a fs) = true := by
  cases a with
  | fail => exact h
  | ok => cases c <;> exact cellsWf_writeCells _ _ _ h

/-! ## Memory accesses -/

/-- A memory read that does not fault hands on exactly the bytes of its range. -/
theorem memRead_cases (sp : Space) (a n : Nat) (s : State) (k : List Byte → Out) :
    (∃ bytes, a + n ≤ sp.size s.cfg ∧ readCells (s.space sp) a n = some bytes ∧
      memRead sp a n s k = k bytes) ∨
    (a + n ≤ sp.size s.cfg ∧ readCells (s.space sp) a n = none ∧
      memRead sp a n s k = .fault (.unwrittenByte sp a n)) ∨
    (sp.size s.cfg < a + n ∧ memRead sp a n s k = .fault (.outsideSpace sp a n)) := by
  unfold memRead
  split
  · rename_i hin
    split
    · rename_i bytes hb; exact .inl ⟨bytes, hin, hb, rfl⟩
    · rename_i hb; exact .inr (.inl ⟨hin, hb, rfl⟩)
  · rename_i hin; exact .inr (.inr ⟨by omega, rfl⟩)

theorem memRead_ok {sp : Space} {a n : Nat} {s : State} {k : List Byte → Out} {bytes : List Byte}
    (hin : a + n ≤ sp.size s.cfg) (hb : readCells (s.space sp) a n = some bytes) :
    memRead sp a n s k = k bytes := by simp [memRead, hin, hb]

theorem memWrite_ok {sp : Space} {a : Nat} {bytes : List Byte} {s : State} {k : State → Out}
    (hin : a + bytes.length ≤ sp.size s.cfg) :
    memWrite sp a bytes s k = k (s.setSpace sp (writeCells (s.space sp) a bytes)) := by
  simp [memWrite, hin]

theorem memWrite_outside {sp : Space} {a : Nat} {bytes : List Byte} {s : State} {k : State → Out}
    (hout : sp.size s.cfg < a + bytes.length) :
    memWrite sp a bytes s k = .fault (.outsideSpace sp a bytes.length) := by
  simp [memWrite]; omega

/-! ## One chunk read -/

/-- The state once the answer `d` of a chunk read of `n` bytes has been stored: the raw answer in RAW,
its bytes after the artifact in CB at the cursor. -/
def State.chunkStored (s : State) (n d : Nat) (r : Answers DevAnswer) : State :=
  let t := s.devAnswered (.accRd n (accOffset s.cfg s.cursor)) (.ok d) r
  { t with
    raw := writeCells s.raw 0 (answerBytes (n + 1) d)
    cirBuf := writeCells s.cirBuf s.cursor ((answerBytes (n + 1) d).drop 1) }

/-- A chunk read that is answered `OK` and fits goes on from the stored state. -/
theorem readChunk_ok {n d : Nat} {s : State} {k : State → Out} {r : Answers DevAnswer}
    (h : s.env.nextDev = some (.ok d, r)) (hraw : n ≤ s.cfg.chunk)
    (hcb : s.cursor + n ≤ s.cfg.cirLen) : readChunk n s k = k (s.chunkStored n d r) := by
  have hlen : (answerBytes (n + 1) d).length = n + 1 := answerBytes_length _ _
  rw [readChunk, withDev_ok h, memWrite_ok (by simp; omega)]
  rw [memRead_ok (bytes := (answerBytes (n + 1) d).drop 1) (by simp; omega)]
  · rw [memWrite_ok (by simp; omega)]
    rfl
  · have := readCells_writeCells s.raw 0 1 n (answerBytes (n + 1) d) (by omega)
    simpa [List.take_of_length_le, hlen] using this

/-- The three ends of a chunk read that is not outside its spaces. -/
theorem readChunk_cases {n : Nat} {s : State} (k : State → Out) (hraw : n ≤ s.cfg.chunk)
    (hcb : s.cursor + n ≤ s.cfg.cirLen) :
    (s.env.nextDev = none ∧ readChunk n s k = .next s) ∨
    (∃ r, s.env.nextDev = some (.fail, r) ∧ readChunk n s k =
      .next (raise (.chunkReadFailure s.cursor)
        (s.devAnswered (.accRd n (accOffset s.cfg s.cursor)) .fail r))) ∨
    (∃ d r, s.env.nextDev = some (.ok d, r) ∧ readChunk n s k = k (s.chunkStored n d r)) := by
  rcases h : s.env.nextDev with _ | ⟨_ | d, r⟩
  · exact .inl ⟨rfl, withDev_unanswered h⟩
  · exact .inr (.inl ⟨r, rfl, withDev_fail h⟩)
  · exact .inr (.inr ⟨d, r, rfl, readChunk_ok h hraw hcb⟩)

/-- A chunk read that gives a next state waits, fails, or has fitted and been stored. -/
theorem readChunk_next {n : Nat} {s t : State} {k : State → Out} (h : readChunk n s k = .next t) :
    (s.env.nextDev = none ∧ t = s) ∨
    (∃ r, s.env.nextDev = some (.fail, r) ∧ t = raise (.chunkReadFailure s.cursor)
      (s.devAnswered (.accRd n (accOffset s.cfg s.cursor)) .fail r)) ∨
    (∃ d r, s.env.nextDev = some (.ok d, r) ∧ n ≤ s.cfg.chunk ∧ s.cursor + n ≤ s.cfg.cirLen ∧
      k (s.chunkStored n d r) = .next t) := by
  rcases ha : s.env.nextDev with _ | ⟨_ | d, r⟩
  · rw [readChunk, withDev_unanswered ha] at h; cases h; exact .inl ⟨rfl, rfl⟩
  · rw [readChunk, withDev_fail ha] at h; cases h; exact .inr (.inl ⟨r, rfl, rfl⟩)
  · refine .inr (.inr ⟨d, r, rfl, ?_⟩)
    by_cases hn : n ≤ s.cfg.chunk
    · by_cases hc : s.cursor + n ≤ s.cfg.cirLen
      · rw [readChunk_ok ha hn hc] at h; exact ⟨hn, hc, h⟩
      · rw [readChunk, withDev_ok ha, memWrite_ok (by simp; omega)] at h
        rcases memRead_cases _ _ _ _ _ with ⟨b, _, hb, e⟩ | ⟨_, _, e⟩ | ⟨_, e⟩ <;> rw [e] at h
        · have := (readCells_eq_some.1 hb).1
          rw [memWrite_outside (by simp; omega)] at h; cases h
        · cases h
        · cases h
    · rw [readChunk, withDev_ok ha, memWrite_outside (by simp; omega)] at h; cases h

/-! ## What stands before a next state -/

/-- A device command whose failure is the hard stop, when it gives a next state. -/
theorem withDevOrHalt_next {c : DevCmd} {s t : State} {g : Nat → State → Out}
    (h : withDevOrHalt c s g = .next t) :
    (s.env.nextDev = none ∧ t = s) ∨
    (∃ r, s.env.nextDev = some (.fail, r) ∧
      t = raise (.deviceIoFatal (devName c)) (s.devAnswered c .fail r)) ∨
    (∃ d r, s.env.nextDev = some (.ok d, r) ∧ g d (s.devAnswered c (.ok d) r) = .next t) := by
  rcases withDevOrHalt_cases c s g with ⟨he, hb⟩ | ⟨r, he, hb⟩ | ⟨d, r, he, hb⟩ <;> rw [hb] at h
  · cases h; exact .inl ⟨he, rfl⟩
  · cases h; exact .inr (.inl ⟨r, he, rfl⟩)
  · exact .inr (.inr ⟨d, r, he, h⟩)

/-- A store command, when it gives a next state. -/
theorem withSink_next {c : SinkCmd} {s t : State} {f g : State → Out}
    (h : withSink c s f g = .next t) :
    (s.env.nextSink = none ∧ t = s) ∨
    (∃ r, s.env.nextSink = some (.fail, r) ∧ f (s.sinkAnswered c .fail r) = .next t) ∨
    (∃ r, s.env.nextSink = some (.ok, r) ∧ g (s.sinkAnswered c .ok r) = .next t) := by
  rcases withSink_cases c s f g with ⟨he, hb⟩ | ⟨r, he, hb⟩ | ⟨r, he, hb⟩ <;> rw [hb] at h
  · cases h; exact .inl ⟨he, rfl⟩
  · exact .inr (.inl ⟨r, he, h⟩)
  · exact .inr (.inr ⟨r, he, h⟩)

/-- A memory read, when it gives a next state. -/
theorem memRead_next {sp : Space} {a n : Nat} {s t : State} {k : List Byte → Out}
    (h : memRead sp a n s k = .next t) :
    ∃ bytes, a + n ≤ sp.size s.cfg ∧ readCells (s.space sp) a n = some bytes ∧ k bytes = .next t := by
  rcases memRead_cases sp a n s k with ⟨b, h₁, h₂, hb⟩ | ⟨_, _, hb⟩ | ⟨_, hb⟩ <;> rw [hb] at h
  · exact ⟨b, h₁, h₂, h⟩
  · cases h
  · cases h

/-- A memory write, when it gives a next state. -/
theorem memWrite_next {sp : Space} {a : Nat} {bytes : List Byte} {s t : State} {k : State → Out}
    (h : memWrite sp a bytes s k = .next t) :
    a + bytes.length ≤ sp.size s.cfg ∧
      k (s.setSpace sp (writeCells (s.space sp) a bytes)) = .next t := by
  unfold memWrite at h
  split at h
  · exact ⟨‹_›, h⟩
  · cases h

end Sys2Proof.Machine
end

