-- ==== Sys2Proof/Laws/Step.lean ====
section
/-! SUPPORT. What one step can do, said once: which operation a dispatch word selects, and the ways a
step can give a next state. -/

namespace Sys2Proof.Machine

open Sys2Proof

/-- The operation RXCAP's own turn selects (30_encoding.md R107, fourth column). -/
def selected (q : Seq) (cond : Bool) : Option Instr :=
  match q, cond with
  | .idle, false => some .arm
  | .idle, true => some .stop
  | .armed, false => some .poll
  | .frClr, false => some .clrGood
  | .frLen, false => some .rdLen
  | .frData, false => some .rdFrame
  | .frIdx, false => some .xIdx
  | .frTs, false => some .rdTs
  | .frAcc0, false => some .accInit
  | .frAcc, false => some .accL
  | .frAcc, true => some .accF
  | .frDiag, false => some .frDiag
  | .frOpen, false => some .serOpen
  | .frWrite, false => some .serWr
  | .frCount, false => some .count
  | .reClr, false => some .clrErr
  | .reRst, false => some .rxRst
  | .reDiag, false => some .reDiag
  | _, _ => none

theorem decodeSeq_dispatchCode (q : Seq) (cond : Bool) :
    decodeSeq (dispatchCode q cond) = selected q cond := by
  cases q with
  | reserved c => revert c; cases cond <;> decide
  | _ => cases cond <;> decide

theorem decodeSeq_dispatchWord (s : State) :
    decodeSeq (dispatchWord s) = selected s.seq (condBit s) := decodeSeq_dispatchCode _ _

@[simp] theorem State.withTurns_self (s : State) : s.withTurns s.env.turns = s := rfl
@[simp] theorem dispatchWord_withTurns (s : State) (ts : List Turn) :
    dispatchWord (s.withTurns ts) = dispatchWord s := rfl

/-- RXCAP's own turn either stops or selects by the dispatch word. -/
theorem fetchCore_cases (s : State) :
    (∃ o, fetchCore s = .stop o ∧ ∀ t, o ≠ .next t) ∨
    (s.started = true ∧ terminal s.seq = false ∧ fetchCore s = .word ⟨.seq, dispatchWord s, []⟩ s) := by
  unfold fetchCore
  by_cases hs : s.started = true
  · rw [if_pos hs]
    cases hq : s.seq <;> first
      | exact .inr ⟨hs, rfl, rfl⟩
      | exact .inl ⟨_, rfl, fun _ h => by cases h⟩
  · rw [if_neg hs]
    exact .inl ⟨_, rfl, fun _ h => by cases h⟩

/-- What RXCAP's own turn does with the operation it selects. -/
def coreRuns (s t : State) : Prop :=
  s.started = true ∧ terminal s.seq = false ∧
    ((∃ i, selected s.seq (condBit s) = some i ∧ exec i s = .next t) ∨
     (selected s.seq (condBit s) = none ∧ t = raise (.illegalSeq (dispatchWord s)) s))

/-- A step that gives a next state ran RXCAP's own operation, halted on an illegal dispatch word, or ran
a presented instruction that is no sequencer operation. -/
theorem step_next {s t : State} (h : step s = .next t) :
    (∃ ts, (s.env.turns = [] ∧ ts = [] ∨ s.env.turns = .core :: ts) ∧ coreRuns (s.withTurns ts) t) ∨
    (∃ e ts i, s.env.turns = .present e :: ts ∧ e.format ≠ .seq ∧ decode e = .ok i ∧
      exec i (s.withTurns ts) = .next t) := by
  have core : ∀ u : State,
      (match fetchCore u with
        | .stop o => o
        | .word e v => match decode e with
          | .ok i => exec i v
          | .error error => undecodable e error v) = .next t → coreRuns u t := by
    intro u h
    rcases fetchCore_cases u with ⟨o, hf, ho⟩ | ⟨hs, ht, hf⟩ <;> rw [hf] at h
    · exact absurd h (ho t)
    · refine ⟨hs, ht, ?_⟩
      simp only [decode, decodeSeq_dispatchWord] at h
      cases hsel : selected u.seq (condBit u) with
      | some i => rw [hsel] at h; exact .inl ⟨i, rfl, h⟩
      | none => rw [hsel] at h; cases h; exact .inr ⟨rfl, rfl⟩
  unfold step fetch at h
  rcases hts : s.env.turns with _ | ⟨_ | e, ts⟩ <;> rw [hts] at h
  · refine .inl ⟨[], .inl ⟨rfl, rfl⟩, ?_⟩
    have : s.withTurns [] = s := by rw [← hts]; rfl
    rw [this]; exact core s h
  · exact .inl ⟨ts, .inr rfl, core _ h⟩
  · refine .inr ⟨e, ts, ?_⟩
    rcases e with ⟨f, c, ops⟩
    cases f with
    | seq => cases h
    | _ =>
      dsimp only at h
      split at h
      · rename_i i hd; exact ⟨i, rfl, by simp, hd, h⟩
      · cases h

/-! ## The effects that count over a run -/

/-- Where a sequencer operation may take `seq` (10_state.md R21, last column). -/
def targets : Instr → List Seq
  | .arm => [.armed, .halt]
  | .stop => [.done]
  | .poll => [.armed, .frClr, .reClr, .halt]
  | .clrGood => [.frLen, .halt]
  | .rdLen => [.frData, .frDiag, .halt]
  | .rdFrame => [.frIdx, .halt]
  | .xIdx => [.frTs]
  | .rdTs => [.frAcc0, .halt]
  | .accInit => [.frAcc]
  | .accL => [.frDiag]
  | .accF => [.frAcc, .frDiag]
  | .frDiag => [.frOpen, .idle, .halt]
  | .serOpen => [.frWrite, .idle]
  | .serWr => [.frCount, .idle]
  | .count => [.idle]
  | .clrErr => [.reRst, .halt]
  | .rxRst => [.reDiag, .halt]
  | .reDiag => [.idle, .halt]
  | .statusRd | .statusClr _ | .rxEnable _ | .rxReset | .flenRd | .frameRd _ | .tsRd _ | .accRd _ _
  | .diagRd | .fileOpen _ | .fileWrite _ _ | .start _ | .kill => []

/-- What a sequencer operation can do to the configuration, the turns, the counter, the outputs, the
trace and `seq`, when it gives a next state. -/
structure Effect (i : Instr) (s t : State) : Prop where
  cfg     : t.cfg = s.cfg
  started : t.started = s.started
  turns   : t.env.turns = s.env.turns
  count   : t.frameCount = if i = .count then s.frameCount + 1 else s.frameCount
  events  : ∃ new, t.events = s.events ++ new
  halt    : t.haltCause = s.haltCause ∨ t.seq = .halt
  trace   : t = s ∨ (t.env.trace = s.env.trace ∧ i ≠ .serWr) ∨
    ∃ x, t.env.trace = s.env.trace ++ [x] ∧
      (completedWrite x = true ↔ i = .serWr ∧ t.seq = .frCount)
  target  : t = s ∨ t.seq ∈ targets i

theorem Effect.refl (i : Instr) (s : State) (hc : i ≠ .count) : Effect i s s :=
  ⟨rfl, rfl, rfl, by simp [hc], ⟨[], by simp⟩, .inl rfl, .inl rfl, .inl rfl⟩

/-- The effect of a step that makes no transaction and emits `new`. -/
theorem Effect.silent {i : Instr} {s t : State} (new : List Event) (hs : i ≠ .serWr)
    (hcfg : t.cfg = s.cfg) (hst : t.started = s.started)
    (hcnt : t.frameCount = if i = .count then s.frameCount + 1 else s.frameCount)
    (hev : t.events = s.events ++ new) (hh : t.haltCause = s.haltCause) (henv : t.env = s.env)
    (ht : t.seq ∈ targets i) : Effect i s t :=
  ⟨hcfg, hst, by rw [henv], hcnt, ⟨new, hev⟩, .inl hh, .inr (.inl ⟨by rw [henv], hs⟩), .inr ht⟩

/-- The effect of a device command that does not halt. -/
theorem Effect.answered {i : Instr} {s t : State} (c : DevCmd) (a : DevAnswer) (r : Answers DevAnswer)
    (hc : i ≠ .count) (hs : i ≠ .serWr) (hcfg : t.cfg = s.cfg) (hst : t.started = s.started)
    (hcnt : t.frameCount = s.frameCount) (hev : t.events = s.events)
    (hh : t.haltCause = s.haltCause ∨ t.seq = .halt) (henv : t.env = (s.devAnswered c a r).env)
    (ht : t.seq ∈ targets i) : Effect i s t :=
  ⟨hcfg, hst, by rw [henv]; rfl, by simp [hc, hcnt], ⟨[], by simp [hev]⟩, hh,
    .inr (.inr ⟨.dev c a, by rw [henv]; rfl, by simp [completedWrite, hs]⟩), .inr ht⟩

/-- The effect of a store command. -/
theorem Effect.stored {i : Instr} {s t : State} (c : SinkCmd) (a : SinkAnswer)
    (r : Answers SinkAnswer) (new : List Event) (hc : i ≠ .count) (hcfg : t.cfg = s.cfg)
    (hst : t.started = s.started) (hcnt : t.frameCount = s.frameCount)
    (hev : t.events = s.events ++ new) (hh : t.haltCause = s.haltCause)
    (henv : t.env = (s.sinkAnswered c a r).env)
    (hx : completedWrite (.sink c a) = true ↔ i = .serWr ∧ t.seq = .frCount)
    (ht : t.seq ∈ targets i) : Effect i s t :=
  ⟨hcfg, hst, by rw [henv]; rfl, by simp [hc, hcnt], ⟨new, hev⟩, .inl hh,
    .inr (.inr ⟨.sink c a, by rw [henv]; rfl, hx⟩), .inr ht⟩

theorem readChunk_effect {i : Instr} {n : Nat} {s t : State} {k : State → Out} (hc : i ≠ .count)
    (hs : i ≠ .serWr) (hd : .frDiag ∈ targets i)
    (hk : ∀ d r, k (s.chunkStored n d r) = .next t → Effect i s t)
    (h : readChunk n s k = .next t) : Effect i s t := by
  rcases readChunk_next h with ⟨_, rfl⟩ | ⟨r, _, rfl⟩ | ⟨d, r, _, _, _, h⟩
  · exact .refl _ _ hc
  · exact .answered _ _ _ hc hs rfl rfl rfl rfl (.inl rfl) rfl hd
  · exact hk d r h

/-- Every sequencer operation that gives a next state has that effect. -/
theorem exec_effect {i : Instr} {s t : State} (hf : i.format = .seq) (h : exec i s = .next t) :
    Effect i s t := by
  cases i <;> simp [Instr.format] at hf
  case stop =>
    cases h; exact .silent [.noticeDone] (by simp) rfl rfl rfl rfl rfl rfl (by simp [targets])
  case count => cases h; exact .silent [] (by simp) rfl rfl rfl (by simp) rfl rfl (by simp [targets])
  case accInit =>
    cases h; exact .silent [] (by simp) rfl rfl rfl (by simp) rfl rfl (by simp [targets])
  case xIdx =>
    obtain ⟨b, _, _, h⟩ := memRead_next h
    cases h; exact .silent [] (by simp) rfl rfl rfl (by simp) rfl rfl (by simp [targets])
  case arm =>
    simp only [exec, execArm] at h
    rcases withDev_cases (.rxEnable .immediate) s _ _ with ⟨_, hb⟩ | ⟨r, _, hb⟩ | ⟨d, r, _, hb⟩ <;>
      rw [hb] at h <;> cases h
    · exact .refl _ _ (by simp)
    · exact .answered _ _ _ (by simp) (by simp) rfl rfl rfl rfl (.inr rfl) rfl (by simp [targets, raise])
    · exact .answered _ _ _ (by simp) (by simp) rfl rfl rfl rfl (.inl rfl) rfl (by simp [targets])
  case accF =>
    refine readChunk_effect (by simp) (by simp) (by simp [targets]) (fun d r h => ?_) h
    cases h
    exact .answered _ _ _ (by simp) (by simp) rfl rfl rfl rfl (.inl rfl) rfl (by simp [targets])
  case accL =>
    refine readChunk_effect (by simp) (by simp) (by simp [targets]) (fun d r h => ?_) h
    cases h
    exact .answered _ _ _ (by simp) (by simp) rfl rfl rfl rfl (.inl rfl) rfl (by simp [targets])
  case serOpen =>
    simp only [exec, execSerOpen] at h
    rcases withSink_next h with ⟨_, rfl⟩ | ⟨r, _, h⟩ | ⟨r, _, h⟩
    · exact .refl _ _ (by simp)
    · cases h
      exact .stored _ _ _ [.logOpenFail _] (by simp) rfl rfl rfl rfl rfl rfl (by simp [completedWrite])
        (by simp [targets, raise])
    · cases h
      exact .stored _ _ _ [] (by simp) rfl rfl rfl (by simp) rfl rfl (by simp [completedWrite])
        (by simp [targets])
  case serWr =>
    obtain ⟨b, _, _, h⟩ := memRead_next h
    rcases withSink_next h with ⟨_, rfl⟩ | ⟨r, _, h⟩ | ⟨r, _, h⟩
    · exact .refl _ _ (by simp)
    · cases h
      exact .stored _ _ _ [.logWriteFail _] (by simp) rfl rfl rfl rfl rfl rfl
        (by simp [completedWrite, raise]) (by simp [targets, raise])
    · cases h
      exact .stored _ _ _ [] (by simp) rfl rfl rfl (by simp) rfl rfl (by simp [completedWrite])
        (by simp [targets])
  all_goals
    simp only [exec, execPoll, execClrGood, execRdLen, execRdFrame, execRdTs, execFrDiag, execClrErr,
      execRxRst, execReDiag] at h
    rcases withDevOrHalt_next h with ⟨_, rfl⟩ | ⟨r, _, rfl⟩ | ⟨d, r, _, h⟩
    · exact .refl _ _ (by simp)
    · exact .answered _ _ _ (by simp) (by simp) rfl rfl rfl rfl (.inr rfl) rfl (by simp [targets, raise])
    · try replace h := (memWrite_next h).2
      revert h
      (repeat' split) <;> intro h <;> cases h <;>
        exact .answered _ _ _ (by simp) (by simp) rfl rfl rfl rfl (.inl rfl) rfl
          (by simp [targets, raise])

/-- A word that is no SEQ word decodes to an instruction of its own format. -/
theorem decode_format {e : Encoded} {i : Instr} (h : decode e = .ok i) (hf : e.format ≠ .seq) :
    i.format = e.format := by
  rcases e with ⟨f, c, ops⟩
  cases f with
  | seq => exact absurd rfl hf
  | _ =>
    simp only [decode, decodeDri, decodeSnk, decodeHost] at h
    repeat' split at h
    all_goals first | cases h; rfl | cases h

theorem selected_format {q : Seq} {cond : Bool} {i : Instr} (h : selected q cond = some i) :
    i.format = .seq := by
  cases q <;> cases cond <;> simp [selected] at h <;> subst h <;> rfl

theorem selected_targets {q : Seq} {cond : Bool} {i : Instr} (h : selected q cond = some i) :
    ∀ q' ∈ targets i, q' ∈ successors q := by
  cases q <;> cases cond <;> simp [selected] at h <;> subst h <;> decide

/-- What RXCAP's own turn does, when it gives a next state. -/
theorem coreRuns_cases {s t : State} (h : coreRuns s t) :
    s.started = true ∧ terminal s.seq = false ∧
      ((∃ i, selected s.seq (condBit s) = some i ∧ Effect i s t) ∨
       (∃ c, s.seq = .reserved c ∧ t = raise (.illegalSeq (dispatchWord s)) s)) := by
  obtain ⟨h₁, h₂, ⟨i, hs, h⟩ | ⟨hs, rfl⟩⟩ := h
  · exact ⟨h₁, h₂, .inl ⟨i, hs, exec_effect (selected_format hs) h⟩⟩
  · refine ⟨h₁, h₂, .inr ?_⟩
    cases hq : s.seq <;> rw [hq] at hs h₂ <;> cases hc : condBit s <;> rw [hc] at hs <;>
      simp_all [selected, terminal, condBit]

/-- What a presented instruction does to a started RXCAP, when it gives a next state. -/
theorem presented_cases {i : Instr} {s t : State} (hf : i.format ≠ .seq) (hs : s.started = true)
    (h : exec i s = .next t) :
    t = s ∨
    (∃ c a r, i.format = .dri ∧ t = s.devAnswered c a r) ∨
    (∃ c a r, i.format = .snk ∧ t = s.sinkAnswered c a r) ∨
    (i = .kill ∧ terminal s.seq = false ∧ t = { s with seq := .killed }) := by
  have dev : ∀ c, i.format = .dri → devCommand c s = .next t →
      t = s ∨ ∃ c a r, i.format = .dri ∧ t = s.devAnswered c a r := by
    intro c hi h
    obtain ⟨u, hu, rfl | ⟨a, r, _, rfl⟩⟩ := devCommand_next c s <;> rw [hu] at h <;> cases h
    · exact .inl rfl
    · exact .inr ⟨_, _, _, hi, rfl⟩
  have sink : ∀ c, i.format = .snk → sinkCommand c s = .next t →
      t = s ∨ ∃ c a r, i.format = .snk ∧ t = s.sinkAnswered c a r := by
    intro c hi h
    obtain ⟨u, hu, rfl | ⟨a, r, _, rfl⟩⟩ := sinkCommand_next c s <;> rw [hu] at h <;> cases h
    · exact .inl rfl
    · exact .inr ⟨_, _, _, hi, rfl⟩
  cases i <;> simp [Instr.format] at hf
  case start => simp [exec, execStart, hs] at h
  case kill =>
    simp only [exec, execKill] at h
    split at h <;> cases h
    · exact .inl rfl
    · exact .inl rfl
    · exact .inl rfl
    · refine .inr (.inr (.inr ⟨rfl, ?_, rfl⟩))
      cases hq : s.seq <;> simp_all [terminal]
  case fileOpen => exact (sink _ rfl h).elim .inl (.inr ∘ .inr ∘ .inl)
  case fileWrite => exact (sink _ rfl h).elim .inl (.inr ∘ .inr ∘ .inl)
  all_goals exact (dev _ rfl h).elim .inl (.inr ∘ .inl)

/-- On RXCAP's own turn a step is the selected operation. -/
theorem step_selected {s : State} {i : Instr} (hs : s.started = true) (ht : s.env.turns = [])
    (hsel : selected s.seq (condBit s) = some i) : step s = exec i s := by
  have hterm : terminal s.seq = false := by
    cases hq : s.seq <;> rw [hq] at hsel <;> (generalize condBit s = b at hsel) <;> cases b <;>
      simp [selected] at hsel <;> rfl
  unfold step fetch
  rw [ht]; dsimp only
  rcases fetchCore_cases s with ⟨o, h, hn⟩ | ⟨_, _, h⟩
  · exfalso
    unfold fetchCore at h
    rw [if_pos hs] at h
    split at h <;> simp_all [terminal]
  · rw [h]; simp only [decode, decodeSeq_dispatchWord, hsel]

theorem run_succ (M : Host.Core) (s : M.State) (k : Nat) :
    M.run (k + 1) s = match M.step s with
      | .next t => M.run k t
      | .fault r => .fault r
      | .refused r => .refused r := rfl

/-- A run whose first step gives a next state goes on from there. -/
theorem core_run_succ {s t : State} {k : Nat} (h : step s = .next t) :
    core.run (k + 1) s = core.run k t := by
  rw [run_succ core s k, show core.step s = .next t from h]

end Sys2Proof.Machine
end

