-- ==== Sys2Proof/Tests/Slice0.lean ====
section
/-! SUPPORT. Tests: the checks of WellFormed refuse an ill-formed term each; words written out from the
spec's encodings decode to their instructions; one step on a small state per instruction, with expected
values from 95_test_vectors.md (V<n>, P1, P2); and a witness for the hypotheses of every statement. -/

namespace Sys2Proof.Tests

open Sys2Proof Sys2Proof.Machine

/-! ## Helpers: configuration T of 95_test_vectors.md section 1 -/

def cfgT : Config where
  n := 2
  chunk := 3
  accBase := 0
  frameCap := 8
  idxOff := 2
  statusW := 8
  goodMask := 0x01
  errMask := 0x06
  diagW := 2
  native := .little
  maxFrames := none
  expId := "exp"
  pathOf := { listed := [⟨"exp", 7, 1007⟩, ⟨"exp", 42, 1042⟩], rest := 0 }

/-- A state of configuration T with filled buffers (those of P1 and V26). -/
def base : State :=
  { State.afterStart cfgT { turns := [], devAnswers := ⟨[], .never⟩, sinkAnswers := ⟨[], .never⟩, trace := [] } with
    frameBuf := numberFrom 0 [0xC5, 0x00, 0x2A, 0x00, 0x00, 0x00, 0x00, 0x00]
    cirBuf := numberFrom 0 [0x10, 0x00, 0xF0, 0xFF, 0x02, 0x00, 0xFE, 0xFF]
    raw := numberFrom 0 [0xEE, 0xFF, 0x02, 0x00] }

/-- That state at `q`, with the device's answers to come. -/
def dev (q : Seq) (answers : List DevAnswer) : State :=
  { base with seq := q, env := { base.env with devAnswers := ⟨answers, .never⟩ } }

/-- That state at `q`, with the store's answers to come. -/
def sink (q : Seq) (answers : List SinkAnswer) : State :=
  { base with seq := q, env := { base.env with sinkAnswers := ⟨answers, .never⟩ } }

/-- That state with other turns to come. -/
def turns (ts : List Turn) : State := { base with env := { base.env with turns := ts } }

/-- That state at `ARMED`, with no answer listed and `after` to come. -/
def polling (after : Tail DevAnswer) : State :=
  { base with seq := .armed, env := { base.env with devAnswers := ⟨[], after⟩ } }

/-- A state of configuration T as `ARM` leaves the buffers. -/
def armed (q : Seq) (answers : List DevAnswer) : State :=
  { dev q answers with frameBuf := numberFrom 0 (zeros 8), cirBuf := numberFrom 0 (zeros 8) }

/-- The bytes of a memory from address 0 on. -/
def contents (m : Memory) : List Byte := m.map (·.2)

/-- What `f` shows of the next state. -/
def seen {α : Type} (f : State → α) : Out → Option α
  | .next s => some (f s)
  | .fault _ => none
  | .refused _ => none

/-- The outcome is a next state. -/
def completes (o : Out) : Bool := (seen (fun _ => ()) o).isSome

/-! ## WellFormed refuses -/

theorem test_wellFormed_statusClr : (Instr.statusClr 0x100).wellFormed cfgT = false := by decide
theorem test_wellFormed_frameRd : (Instr.frameRd 9).wellFormed cfgT = false := by decide
theorem test_wellFormed_accRd_zero : (Instr.accRd 0 0).wellFormed cfgT = false := by decide
theorem test_wellFormed_accRd_large : (Instr.accRd 4 0).wellFormed cfgT = false := by decide
theorem test_wellFormed_fileWrite : (Instr.fileWrite 0 [0]).wellFormed cfgT = false := by decide
theorem test_wellFormed_start :
    (Instr.start { cfgT with n := 0 }).wellFormed cfgT = false ∧
    (Instr.start { cfgT with chunk := 0 }).wellFormed cfgT = false ∧
    (Instr.start { cfgT with accBase := 1 }).wellFormed cfgT = false ∧
    (Instr.start { cfgT with idxOff := 5 }).wellFormed cfgT = false ∧
    (Instr.start { cfgT with statusW := 1, errMask := 2 }).wellFormed cfgT = false ∧
    (Instr.start { cfgT with goodMask := 0x18 }).wellFormed cfgT = false ∧
    (Instr.start { cfgT with goodMask := 0x100 }).wellFormed cfgT = false ∧
    (Instr.start { cfgT with errMask := 0 }).wellFormed cfgT = false ∧
    (Instr.start { cfgT with errMask := 0x102 }).wellFormed cfgT = false ∧
    (Instr.start { cfgT with errMask := 0x03 }).wellFormed cfgT = false ∧
    (Instr.start cfgT).wellFormed cfgT = true := by decide

/-! ## Decoding, by words written out from 30_encoding.md R99, R100 and R107 -/

theorem test_decode_seq :
    decode ⟨.seq, 0b00000_00_0#8, []⟩ = .ok .arm ∧
    decode ⟨.seq, 0b00000_00_1#8, []⟩ = .ok .stop ∧
    decode ⟨.seq, 0b00001_00_0#8, []⟩ = .ok .poll ∧
    decode ⟨.seq, 0b00010_00_0#8, []⟩ = .ok .clrGood ∧
    decode ⟨.seq, 0b00011_00_0#8, []⟩ = .ok .rdLen ∧
    decode ⟨.seq, 0b00100_00_0#8, []⟩ = .ok .rdFrame ∧
    decode ⟨.seq, 0b00101_00_0#8, []⟩ = .ok .xIdx ∧
    decode ⟨.seq, 0b00110_00_0#8, []⟩ = .ok .rdTs ∧
    decode ⟨.seq, 0b00111_00_0#8, []⟩ = .ok .accInit ∧
    decode ⟨.seq, 0b01000_00_0#8, []⟩ = .ok .accL ∧
    decode ⟨.seq, 0b01000_00_1#8, []⟩ = .ok .accF ∧
    decode ⟨.seq, 0b01001_00_0#8, []⟩ = .ok .frDiag ∧
    decode ⟨.seq, 0b01010_00_0#8, []⟩ = .ok .serOpen ∧
    decode ⟨.seq, 0b01011_00_0#8, []⟩ = .ok .serWr ∧
    decode ⟨.seq, 0b01100_00_0#8, []⟩ = .ok .count ∧
    decode ⟨.seq, 0b01101_00_0#8, []⟩ = .ok .clrErr ∧
    decode ⟨.seq, 0b01110_00_0#8, []⟩ = .ok .rxRst ∧
    decode ⟨.seq, 0b01111_00_0#8, []⟩ = .ok .reDiag := by
  refine ⟨?_, ?_, ?_, ?_, ?_, ?_, ?_, ?_, ?_, ?_, ?_, ?_, ?_, ?_, ?_, ?_, ?_, ?_⟩ <;> rfl

theorem test_decode_dri :
    decode ⟨.dri, 0b0000#8, []⟩ = .ok .statusRd ∧
    decode ⟨.dri, 0b0001#8, [.mask 6]⟩ = .ok (.statusClr 6) ∧
    decode ⟨.dri, 0b0010#8, [.mode .immediate]⟩ = .ok (.rxEnable .immediate) ∧
    decode ⟨.dri, 0b0011#8, []⟩ = .ok .rxReset ∧
    decode ⟨.dri, 0b0100#8, []⟩ = .ok .flenRd ∧
    decode ⟨.dri, 0b0101#8, [.number 6]⟩ = .ok (.frameRd 6) ∧
    decode ⟨.dri, 0b0110#8, [.variant .sys]⟩ = .ok (.tsRd .sys) ∧
    decode ⟨.dri, 0b0111#8, [.number 3, .number 6]⟩ = .ok (.accRd 3 6) ∧
    decode ⟨.dri, 0b1000#8, []⟩ = .ok .diagRd := by
  refine ⟨?_, ?_, ?_, ?_, ?_, ?_, ?_, ?_, ?_⟩ <;> rfl

theorem test_decode_snk_host :
    decode ⟨.snk, 0b0#8, [.path 7]⟩ = .ok (.fileOpen 7) ∧
    decode ⟨.snk, 0b1#8, [.path 7, .bytes [0x2A]]⟩ = .ok (.fileWrite 7 [0x2A]) ∧
    decode ⟨.host, 0b0#8, [.config cfgT]⟩ = .ok (.start cfgT) ∧
    decode ⟨.host, 0b1#8, []⟩ = .ok .kill := by
  refine ⟨?_, ?_, ?_, ?_⟩ <;> rfl

/-- 30_encoding.md R103; V116, V117 of 95_test_vectors.md. -/
theorem test_decode_rejects :
    decode ⟨.seq, 0x98#8, []⟩ = .error .illegalDispatchWord ∧
    decode ⟨.seq, 0x09#8, []⟩ = .error .illegalDispatchWord ∧
    decode ⟨.seq, 0x02#8, []⟩ = .error .illegalDispatchWord ∧
    decode ⟨.seq, 0x88#8, []⟩ = .error .illegalDispatchWord ∧
    decode ⟨.dri, 0x9#8, []⟩ = .error .reservedCommandCode ∧
    decode ⟨.dri, 0x10#8, []⟩ = .error .codeWiderThanFormat ∧
    decode ⟨.dri, 0x7#8, [.number 3]⟩ = .error .wrongOperands ∧
    decode ⟨.snk, 0x2#8, []⟩ = .error .codeWiderThanFormat := by
  refine ⟨?_, ?_, ?_, ?_, ?_, ?_, ?_, ?_⟩ <;> rfl

/-! ## One step per instruction -/

theorem test_arm_ok :  -- V90
    seen (fun t => (contents t.frameBuf, contents t.cirBuf, t.captureOk, t.seq))
      (exec .arm { dev .idle [.ok 0] with captureOk := true }) =
      some (List.replicate 8 0, List.replicate 8 0, false, .armed) := by decide

theorem test_arm_fail :  -- V91
    seen (fun t => (contents t.frameBuf, t.captureOk, t.haltCause, t.seq))
      (exec .arm { dev .idle [.fail] with captureOk := true }) =
      some (List.replicate 8 0, false, some (.deviceIoFatal .rxEnable), .halt) := by decide

theorem test_stop :  -- V92
    seen (fun t => (t.events, t.seq))
      (step { base with frameCount := 3, cfg := { cfgT with maxFrames := some 3 } }) =
      some ([.noticeDone], .done) := by decide

theorem test_stop_not_yet :  -- V92
    seen (fun t => t.seq)
      (step { dev .idle [.ok 0] with frameCount := 2, cfg := { cfgT with maxFrames := some 3 } }) =
      some .armed := by decide

theorem test_poll :  -- V65 (good wins), V63, V66
    seen (fun t => (t.statusLatch, t.seq)) (step (dev .armed [.ok 0x03])) = some (0x03, .frClr) ∧
    seen (fun t => (t.statusLatch, t.seq)) (step (dev .armed [.ok 0x04])) = some (0x04, .reClr) ∧
    seen (fun t => (t.statusLatch, t.seq)) (step (dev .armed [.ok 0x08])) = some (0x08, .armed) := by
  decide

/-- Free answers (10_state.md R42): a `POLL` latches the free answer 5, whatever it is, and 6 is next. -/
theorem test_poll_free (d : Nat) (h : freeDev 5 = .ok d) :
    seen (fun t => (t.statusLatch, t.env.devAnswers)) (exec .poll (polling (.free 5))) =
      some (d % 256, ⟨[], .free 6⟩) := by
  have : (polling (.free 5)).env.nextDev = some (.ok d, ⟨[], .free 6⟩) := by rw [← h]; rfl
  simp only [exec, execPoll, withDevOrHalt_ok this]
  (repeat' split) <;> rfl

theorem test_clrGood :  -- P1 step 4
    seen (fun t => (t.env.trace, t.seq)) (step (dev .frClr [.ok 0])) =
      some ([.dev (.statusClr 0x01) (.ok 0)], .frLen) := by decide

theorem test_rdLen :  -- V72, V73
    seen (fun t => (t.frameLen, t.captureOk, t.seq)) (step (dev .frLen [.ok 8])) =
      some (8, true, .frData) ∧
    seen (fun t => (t.frameLen, t.captureOk, t.seq)) (step (dev .frLen [.ok 9])) =
      some (9, false, .frDiag) := by decide

theorem test_rdFrame_short :  -- V81
    seen (fun t => (contents t.frameBuf, t.seq))
      (step { armed .frData [.okBytes [0xC5, 0x00, 0x07, 0x01]] with frameLen := 4 }) =
      some ([0xC5, 0x00, 0x07, 0x01, 0, 0, 0, 0], .frIdx) := by decide

theorem test_rdFrame_empty :  -- V84
    seen (fun t => (contents t.frameBuf, t.env.trace, t.seq))
      (step { armed .frData [.okBytes []] with frameLen := 0 }) =
      some (List.replicate 8 0, [.dev (.frameRd 0) (.ok 0)], .frIdx) := by decide

theorem test_xIdx :  -- V80, V86
    seen (fun t => (t.frameIndex, t.seq)) (step (dev .frIdx [])) = some (42, .frTs) ∧
    seen (fun t => t.frameIndex) (step { dev .frIdx [] with
      frameBuf := numberFrom 0 [0xC5, 0, 0, 0, 1, 0, 0, 0]
      cfg := { cfgT with native := .big } }) = some 256 := by decide

theorem test_xIdx_negative :  -- V83
    seen (fun t => t.frameIndex.toInt) (step { dev .frIdx [] with
      frameBuf := numberFrom 0 [0, 0, 0, 0, 0, 0x80, 0xAA, 0xBB] }) =
      some (-2147483648) := by decide

theorem test_rdTs :  -- V5, V3
    seen (fun t => (t.rxTs, t.seq)) (step (dev .frTs [.okBytes [0xEF, 0xCD, 0xAB, 0x89, 0x67]])) =
      some (0x6789ABCDEF, .frAcc0) ∧
    seen (fun t => t.rxTs) (step (dev .frTs [.okBytes [0xFF, 0xFF, 0xFF, 0xFF, 0xFF]])) =
      some 0xFFFFFFFFFF := by decide

theorem test_rdTs_fail :  -- V9
    seen (fun t => (t.rxTs, t.haltCause, t.seq)) (step { dev .frTs [.fail] with rxTs := 5 }) =
      some (5, some (.deviceIoFatal .tsRd), .halt) := by decide

theorem test_accInit :  -- 41_accumulator_chunk_reader.md R151, N = 1016
    seen (fun t => (t.remaining, t.cursor, t.seq))
      (step { dev .frAcc0 [] with cursor := 8, cfg := { cfgT with n := 1016 } }) =
      some (4064, 0, .frAcc) := by decide

theorem test_accF :  -- P1 step 10
    seen (fun t => (contents t.raw, contents t.cirBuf, t.cursor, t.remaining, t.seq))
      (step { armed .frAcc [.okBytes [0xEE, 0x10, 0x00, 0xF0]] with remaining := 8, cursor := 0 }) =
      some ([0xEE, 0x10, 0x00, 0xF0], [0x10, 0x00, 0xF0, 0, 0, 0, 0, 0], 3, 5, .frAcc) := by decide

theorem test_accF_fail :  -- V46
    seen (fun t => (t.cursor, t.remaining, t.captureOk, t.env.trace, t.seq))
      (step { dev .frAcc [.fail] with remaining := 5, cursor := 3, captureOk := true }) =
      some (3, 5, false, [.dev (.accRd 3 3) .fail], .frDiag) := by decide

theorem test_accL :  -- P1 step 12
    seen (fun t => (contents t.raw, contents t.cirBuf, t.cursor, t.remaining, t.seq))
      (step { dev .frAcc [.okBytes [0xEE, 0xFE, 0xFF]] with
        remaining := 2, cursor := 6
        cirBuf := numberFrom 0 [0x10, 0x00, 0xF0, 0xFF, 0x02, 0x00, 0x00, 0x00] }) =
      some ([0xEE, 0xFE, 0xFF, 0x00], [0x10, 0x00, 0xF0, 0xFF, 0x02, 0x00, 0xFE, 0xFF], 8, 0,
        .frDiag) := by decide

theorem test_accL_fail :  -- V48
    seen (fun t => (t.cursor, t.remaining, t.captureOk, t.env.trace, t.seq))
      (step { dev .frAcc [.fail] with remaining := 2, cursor := 6, captureOk := true }) =
      some (6, 2, false, [.dev (.accRd 2 6) .fail], .frDiag) := by decide

theorem test_frDiag :  -- V95, V96
    seen (fun t => (t.diag, t.seq))
      (step { dev .frDiag [.okBytes [0xD1, 0xD2]] with captureOk := true }) =
      some ([0xD1, 0xD2], .frOpen) ∧
    seen (fun t => (t.diag, t.seq)) (step (dev .frDiag [.okBytes [0xD1, 0xD2]])) =
      some ([0xD1, 0xD2], .idle) := by decide

theorem test_serOpen :  -- P1 step 14
    seen (fun t => (t.files, t.curPath, t.seq)) (exec .serOpen { sink .frOpen [.ok] with frameIndex := 42 }) =
      some ([(1042, [])], 1042, .frWrite) := by decide

theorem test_serOpen_fail :  -- V29
    seen (fun t => (t.files, t.curPath, t.events, t.seq))
      (exec .serOpen { sink .frOpen [.fail] with frameIndex := 42, curPath := 7 }) =
      some ([], 7, [.logOpenFail 1042], .idle) := by decide

/-- The record's own `path_of`: a listed point, and one that is free. -/
theorem test_pathOfFrame :
    pathOfFrame cfgT 7 = 1007 ∧ pathOfFrame cfgT 8 = Config.freePath 0 "exp" 8 := ⟨by decide, rfl⟩

theorem test_serWr :  -- V26
    seen (fun t => (t.files, t.seq)) (step { sink .frWrite [.ok] with
      frameIndex := 42, rxTs := 0x0504030201, curPath := 7, files := [(7, [])] }) =
      some ([(7, [0x2A, 0, 0, 0, 1, 2, 3, 4, 5, 0, 0, 0,
        0x10, 0x00, 0xF0, 0xFF, 0x02, 0x00, 0xFE, 0xFF])], .frCount) := by decide

theorem test_serWr_fail :  -- V28
    seen (fun t => (t.files, t.events, t.frameCount, t.seq))
      (step { sink .frWrite [.fail] with curPath := 7, files := [(7, [])] }) =
      some ([(7, [])], [.logWriteFail 7], 0, .idle) := by decide

theorem test_count :  -- V98
    seen (fun t => (t.frameCount, t.seq)) (step { dev .frCount [] with frameCount := 4294967295 }) =
      some (4294967296, .idle) := by decide

theorem test_clrErr :  -- V99: the whole mask
    seen (fun t => (t.env.trace, t.seq)) (step { dev .reClr [.ok 0] with statusLatch := 0x04 }) =
      some ([.dev (.statusClr 0x06) (.ok 0)], .reRst) := by decide

theorem test_rxRst_fail :  -- V100
    seen (fun t => (t.haltCause, t.seq)) (step (dev .reRst [.fail])) =
      some (some (.deviceIoFatal .rxReset), .halt) := by decide

theorem test_rxRst :  -- P2 step 4
    seen (fun t => (t.env.trace, t.seq)) (step (dev .reRst [.ok 0])) =
      some ([.dev .rxReset (.ok 0)], .reDiag) := by decide

theorem test_reDiag :  -- P2 step 5
    seen (fun t => (t.diag, t.frameCount, t.seq)) (step (dev .reDiag [.okBytes [0xA1, 0xA2]])) =
      some ([0xA1, 0xA2], 0, .idle) := by decide

/-- Every device command, presented, is issued with its operands (44_device_register_interface.md). -/
theorem test_device_commands :
    [Instr.statusRd, .statusClr 6, .rxEnable .immediate, .rxReset, .flenRd, .frameRd 6, .tsRd .rx,
      .accRd 3 6, .diagRd].map (fun i => seen (fun t => t.env.trace)
        (step { turns [.present (encode i)] with
          env := { turns := [.present (encode i)], devAnswers := ⟨[.ok 9], .never⟩, sinkAnswers := ⟨[], .never⟩, trace := [] } })) =
      [DevCmd.statusRd, .statusClr 6, .rxEnable .immediate, .rxReset, .flenRd, .frameRd 6, .tsRd .rx,
        .accRd 3 6, .diagRd].map (fun c => some [Transaction.dev c (.ok 9)]) := by decide

theorem test_fileOpen :  -- 20_memory.md R72: another file stays
    seen (fun t => t.files) (exec (.fileOpen 5) { sink .idle [.ok] with files := [(3, [1]), (5, [2])] }) =
      some [(3, [1]), (5, [])] := by decide

theorem test_fileWrite :
    seen (fun t => t.files) (exec (.fileWrite 4 [9]) { sink .idle [.ok] with files := [(3, [1]), (5, [2])] }) =
      some [(3, [1]), (4, [9]), (5, [2])] := by decide

theorem test_start :  -- V120
    seen (fun t => (t.seq, t.frameCount, t.captureOk, t.haltCause, t.events, t.files))
      (exec (.start { cfgT with maxFrames := some 1 })
        { base with started := false, frameCount := 9, captureOk := true, events := [.noticeDone] }) =
      some (.idle, 0, false, none, [], []) := rfl

theorem test_start_twice : completes (exec (.start cfgT) base) = false := by decide

theorem test_kill :  -- V121, V123
    exec .kill (dev .armed []) = .next { dev .armed [] with seq := .killed } ∧
    exec .kill (dev .done []) = .next (dev .done []) := ⟨rfl, rfl⟩

theorem test_kill_keeps_empty_file :  -- V122
    seen (fun t => (t.seq, t.files)) (step { turns [.present ⟨.host, 1#8, []⟩] with
      seq := .frWrite, files := [(7, [])] }) = some (.killed, [(7, [])]) := by decide

/-! ## Dispatch, terminal states and data formats -/

theorem test_dispatch_words :  -- V93, V94, V112, V113, V114
    dispatchWord { base with frameCount := 99 } = 0x00#8 ∧
    dispatchWord { base with cfg := { cfgT with maxFrames := some 0 } } = 0x01#8 ∧
    dispatchWord { dev .frAcc [] with remaining := 8 } = 0x41#8 ∧
    dispatchWord { dev .frAcc [] with remaining := 3 } = 0x40#8 ∧
    dispatchWord (dev .reDiag []) = 0x78#8 := by decide

theorem test_illegal_code_halts :  -- V116
    seen (fun t => (t.haltCause, t.seq)) (step (dev (.reserved 0) [])) =
      some (some (.illegalSeq 0x98#8), .halt) := by decide

theorem test_terminal :  -- V115
    step { dev .halt [] with haltCause := some (.deviceIoFatal .tsRd) } =
      .fault (.halted (some (.deviceIoFatal .tsRd))) ∧
    step (dev .done []) = .refused .sessionEnded ∧
    step (dev .killed []) = .refused .sessionEnded := ⟨rfl, rfl, rfl⟩

theorem test_record_big :  -- V20
    record .big 42 0x0504030201 [] = [0, 0, 0, 0x2A, 0, 0, 0, 5, 4, 3, 2, 1] := by decide

theorem test_parse :  -- V22
    parse .little [0, 0, 0, 0x80, 0, 0, 0, 0, 0, 0, 0, 0] = (0x80000000, 0, []) := by decide

theorem test_samples :  -- V26
    (sampleReal .little (contents base.cirBuf) 0, sampleImag .little (contents base.cirBuf) 0,
      sampleReal .little (contents base.cirBuf) 1, sampleImag .little (contents base.cirBuf) 1) =
      (16, -16, 2, -2) := by decide

theorem test_accRead :  -- V45
    accRead 10 4 0 [.okBytes [0xEE, 0xA0, 0xA1, 0xA2, 0xA3], .okBytes [0x00, 0xA4, 0xA5, 0xA6, 0xA7],
      .okBytes [0xFF, 0xA8, 0xA9]] =
      ⟨[(4, 0), (4, 4), (2, 8)],
        [0xA0, 0xA1, 0xA2, 0xA3, 0xA4, 0xA5, 0xA6, 0xA7, 0xA8, 0xA9], .complete⟩ := by decide

theorem test_accRead_classes :  -- V30, V32, V42, V44
    (accRead 1 4 0 [.ok 0]).reads = [(1, 0)] ∧
    (accRead 4 4 0 [.ok 0, .ok 0]).reads = [(4, 0)] ∧
    (accRead 4 1 0 [.ok 0, .ok 0, .ok 0, .ok 0]).reads = [(1, 0), (1, 1), (1, 2), (1, 3)] ∧
    (accRead 8 100 0 [.ok 0]).reads = [(8, 0)] := by decide

/-! ## The host's two questions, from reset -/

theorem test_decodeTableWord :
    [0x00, 0x01, 0x08, 0x40, 0x41, 0x78].map (decodeTableWord 8) =
      [some .arm, some .stop, some .poll, some .accL, some .accF, some .reDiag] ∧
    [0x0, 0x3, 0x7, 0x8, 0x9].map (decodeTableWord 4) =
      [some .statusRd, some .rxReset, some (.accRd 0 0), some .diagRd, none] ∧
    [0x0, 0x1].map (decodeTableWord 1) = [some (.fileOpen 0), some (.fileWrite 0 [])] := by decide

theorem test_withFetchWord_reception :
    [0x00, 0x01, 0x08, 0x10, 0x18, 0x20, 0x28, 0x30, 0x38].map (fun w =>
      seen (fun t => t.seq) (step (State.reset.withFetchWord 8 w))) =
      [Seq.armed, .done, .armed, .frLen, .frData, .frIdx, .frTs, .frAcc0, .frAcc].map some := by decide

theorem test_withFetchWord_accL :
    seen (fun t => t.seq) (step (State.reset.withFetchWord 8 0x40)) = some .frDiag := by decide

theorem test_withFetchWord_accF :
    seen (fun t => t.seq) (step (State.reset.withFetchWord 8 0x41)) = some .frAcc := by decide

theorem test_withFetchWord_serWr :
    seen (fun t => t.seq) (step (State.reset.withFetchWord 8 0x58)) = some .frCount := by decide

theorem test_withFetchWord_end :
    [0x48, 0x60, 0x68, 0x70, 0x78].map (fun w =>
      seen (fun t => t.seq) (step (State.reset.withFetchWord 8 w))) =
      [Seq.idle, .idle, .reRst, .reDiag, .idle].map some := by decide

theorem test_withFetchWord_serOpen :
    seen (fun t => t.seq) (step (State.reset.withFetchWord 8 0x50)) = some .frWrite := rfl

theorem test_withFetchWord_dri :
    [0, 1, 2, 3, 4, 5, 6, 7, 8].map (fun w =>
      seen (fun t => t.env.trace) (step (State.reset.withFetchWord 4 w))) =
      [DevCmd.statusRd, .statusClr 0, .rxEnable .immediate, .rxReset, .flenRd, .frameRd 0, .tsRd .rx,
        .accRd 0 0, .diagRd].map (fun c => some [Transaction.dev c (.ok 0)]) := by decide

theorem test_withFetchWord_snk :
    seen (fun t => t.files) (step (State.reset.withFetchWord 1 0)) = some [(0, [])] := by decide

theorem test_placing_start : completes (step (State.reset.placing (.start cfgT))) = true := by decide

/-! ## Witnesses: states and operands that meet the hypotheses of each statement

`TableWordsDecode`, `DecodeAcceptsExactlyTheEncodings`, `DispatchWordFields`,
`IllegalDispatchWordsAreRejected`, `StopEmitsNotice`, `AccInitStartsAtZero`, `ResetMeetsInvariant`,
`TimestampIsFortyBitLittleEndian` and `RecordLayout` have none. -/

/-- A filled state in the chunk loop of P1, after step 10. -/
def midRead : State :=
  { armed .frAcc [.okBytes [0xEE, 0xFF, 0x02, 0x00]] with
    cirBuf := numberFrom 0 [0x10, 0x00, 0xF0, 0, 0, 0, 0, 0]
    frameLen := 6, captureOk := true, cursor := 3, remaining := 5, diag := [0, 0] }

/-- A state of P1 before `COUNT`: one completed write, not counted yet. -/
def beforeCount : State :=
  { base with
    seq := .frCount
    cfg := { cfgT with maxFrames := some 1 }
    env := { base.env with trace := [.sink (.fileOpen 7) .ok, .sink (.fileWrite 7 []) .ok] } }

/-- Two turns of the host, each a `KILL`. -/
def killTwice : List Turn := [.present ⟨.host, 1#8, []⟩, .present ⟨.host, 1#8, []⟩]

/-- That state after a `KILL`, with another one to come. -/
def killedThere : State :=
  { beforeCount with
    seq := .killed
    env := { beforeCount.env with turns := [.present ⟨.host, 1#8, []⟩] } }

/-- A state halted by a failed status read, with a device command presented (log 9). -/
def haltedThere : State :=
  { dev .halt [.ok 0] with
    haltCause := some (.deviceIoFatal .statusRd)
    env := { (dev .halt [.ok 0]).env with turns := [.present (encode .diagRd)] } }

theorem witness_DispatchSelectsExactlyOneOperation :
    terminal (dev .reDiag []).seq = false ∧ ∀ c, (dev .reDiag []).seq ≠ .reserved c := by decide

theorem witness_StepRunsDecodedInstruction :
    (base.env.turns = [] ∧ base.started = true ∧ terminal base.seq = false ∧
      decode ⟨.seq, dispatchWord base, []⟩ = .ok .arm) ∧
    ((turns [.core, .core]).env.turns = .core :: [.core] ∧ (turns [.core, .core]).started = true ∧
      terminal (turns [.core, .core]).seq = false ∧
      decode ⟨.seq, dispatchWord (turns [.core, .core]), []⟩ = .ok .arm) ∧
    ((turns [.present ⟨.host, 1#8, []⟩]).env.turns = .present ⟨.host, 1#8, []⟩ :: [] ∧
      Format.host ≠ .seq ∧ decode ⟨.host, 1#8, []⟩ = .ok .kill) :=
  ⟨⟨rfl, rfl, rfl, rfl⟩, ⟨rfl, rfl, rfl, rfl⟩, rfl, by decide, rfl⟩

theorem witness_ReservedSequencerCodeHalts :
    (dev (.reserved 12) []).env.turns = [] ∧ (dev (.reserved 12) []).started = true ∧
      (dev (.reserved 12) []).seq = .reserved 12 := by decide

theorem witness_TerminalStatesMakeNoStep :
    ∀ q ∈ [Seq.halt, .done, .killed],
      (dev q []).env.turns = [] ∧ (dev q []).started = true ∧ (dev q []).seq = q := by decide

/-- At the bound, one below it, and without a bound. -/
theorem witness_BoundIsCheckedBeforeArming :
    (base.env.turns = [] ∧ base.started = true ∧ base.seq = .idle) ∧
    (({ base with cfg := { cfgT with maxFrames := some 3 }, frameCount := 3 } : State).cfg.maxFrames
      = some 3 ∧ 3 ≤ 3) ∧
    (({ base with cfg := { cfgT with maxFrames := some 3 }, frameCount := 2 } : State).cfg.maxFrames
      = some 3 ∧ 2 < 3) ∧
    base.cfg.maxFrames = none := by decide

/-- One byte more than a chunk, and exactly a chunk. -/
theorem witness_ChunkLoopSelectsFullOrLast :
    (midRead.env.turns = [] ∧ midRead.started = true ∧ midRead.seq = .frAcc) ∧
    ({ midRead with remaining := 4 } : State).cfg.chunk < ({ midRead with remaining := 4 } : State).remaining ∧
    ({ midRead with remaining := 3 } : State).remaining ≤ ({ midRead with remaining := 3 } : State).cfg.chunk := by
  decide

/-- An answer to come, `OK` or `FAIL`: the premise of the statements about operations with one device
command (`ArmZeroFillsAndEnables`, `PollClassifiesStatus`, `ClrGoodClearsGoodMask`,
`RdTsStoresTimestamp`, `FrDiagGuardsSerializer`, `ClrErrClearsWholeMask`, `RxRstResetsReceiver`,
`ReDiagEndsErrorCycle`, `DeviceCommandsComplete`, `FailedDeviceCommandHalts`). -/
theorem witness_answered :
    (dev .armed [.ok 3, .fail]).env.nextDev = some (.ok 3, ⟨[.fail], .never⟩) ∧
    (dev .armed [.fail]).env.nextDev = some (.fail, ⟨[], .never⟩) ∧
    (Instr.poll, DevName.statusRd) ∈ [(Instr.arm, DevName.rxEnable), (.poll, .statusRd)] := by decide

/-- At the capacity and one above it. -/
theorem witness_RdLenTestsCapacity :
    ((dev .frLen [.ok 8]).env.nextDev = some (.ok 8, ⟨[], .never⟩) ∧ 8 ≤ (dev .frLen [.ok 8]).cfg.frameCap) ∧
    ((dev .frLen [.ok 9]).env.nextDev = some (.ok 9, ⟨[], .never⟩) ∧ (dev .frLen [.ok 9]).cfg.frameCap < 9) ∧
    (dev .frLen [.fail]).env.nextDev = some (.fail, ⟨[], .never⟩) := by decide

theorem witness_RdFrameStoresFrameBytes :
    ({ dev .frData [.ok 0] with frameLen := 8 } : State).env.nextDev = some (.ok 0, ⟨[], .never⟩) ∧
    ({ dev .frData [.ok 0] with frameLen := 8 } : State).frameLen ≤
      ({ dev .frData [.ok 0] with frameLen := 8 } : State).cfg.frameCap ∧
    (dev .frData [.fail]).env.nextDev = some (.fail, ⟨[], .never⟩) := by decide

theorem witness_XIdxExtractsFrameIndex :
    base.cfg.idxOff + 4 ≤ base.cfg.frameCap ∧
    base.peek .fb base.cfg.idxOff = some 0x2A ∧ base.peek .fb (base.cfg.idxOff + 1) = some 0 ∧
    base.peek .fb (base.cfg.idxOff + 2) = some 0 ∧ base.peek .fb (base.cfg.idxOff + 3) = some 0 := by
  decide

/-- The last full chunk that leaves a byte: it ends one byte before the buffer does. -/
theorem witness_AccFReadsFullChunk :
    ({ midRead with remaining := 4, cursor := 4 } : State).env.nextDev =
      some (.okBytes [0xEE, 0xFF, 0x02, 0x00], ⟨[], .never⟩) ∧
    ({ midRead with remaining := 4, cursor := 4 } : State).cfg.chunk < 4 ∧
    4 + 4 ≤ ({ midRead with remaining := 4, cursor := 4 } : State).cfg.cirLen ∧
    (dev .frAcc [.fail]).env.nextDev = some (.fail, ⟨[], .never⟩) := by decide

/-- A last chunk of full size, ending with the buffer. -/
theorem witness_AccLReadsLastChunk :
    ({ midRead with remaining := 3, cursor := 5 } : State).env.nextDev =
      some (.okBytes [0xEE, 0xFF, 0x02, 0x00], ⟨[], .never⟩) ∧
    3 ≤ ({ midRead with remaining := 3, cursor := 5 } : State).cfg.chunk ∧
    5 + 3 ≤ ({ midRead with remaining := 3, cursor := 5 } : State).cfg.cirLen ∧
    (dev .frAcc [.fail]).env.nextDev = some (.fail, ⟨[], .never⟩) := by decide

/-- A store answer to come, `OK` or `FAIL` (`SerOpenTruncatesOrLogs`, `FileOpenTruncates`,
`FileWriteStoresBytes`). -/
theorem witness_stored :
    (sink .frOpen [.ok]).env.nextSink = some (.ok, ⟨[], .never⟩) ∧
    (sink .frOpen [.fail]).env.nextSink = some (.fail, ⟨[], .never⟩) ∧
    Config.freePath 0 "exp" 0 = pathAt (sink .frOpen [.ok]).cfg.pathOf (sink .frOpen [.ok]).cfg.expId
      (sink .frOpen [.ok]).frameIndex :=
  ⟨rfl, rfl, rfl⟩

theorem witness_SerWrWritesRecordOrLogs :
    (contents base.cirBuf).length = 4 * base.cfg.n ∧
    (∀ j < 4 * base.cfg.n, base.peek .cb j = (contents base.cirBuf)[j]?) ∧
    (sink .frWrite [.ok]).env.nextSink = some (.ok, ⟨[], .never⟩) ∧
    (sink .frWrite [.fail]).env.nextSink = some (.fail, ⟨[], .never⟩) := by decide

/-- `COUNT` is reached, and the counter changes: the premises of the last clauses of `CountAddsOne`. -/
theorem witness_CountAddsOne :
    (sink .frWrite [.ok]).env.turns = [] ∧
    (∃ t, step (sink .frWrite [.ok]) = .next t ∧ t.seq = .frCount) ∧
    beforeCount.started = true ∧ ∃ t, step beforeCount = .next t ∧ t.frameCount ≠ beforeCount.frameCount :=
  ⟨rfl, ⟨_, rfl, rfl⟩, rfl, _, rfl, by decide⟩

/-- `FRAME_READY` is entered, and `RE_RST` is entered: the premises of the last clauses of
`ClrGoodClearsGoodMask` and `RxRstResetsReceiver`. -/
theorem witness_entries :
    (∃ t, step (dev .armed [.ok 1]) = .next t ∧ macroState Seq.armed ≠ some .frameReady ∧
      macroState t.seq = some .frameReady) ∧
    (∃ t, step (dev .reClr [.ok 0]) = .next t ∧ Seq.reClr ≠ .reRst ∧ t.seq = .reRst) :=
  ⟨⟨_, rfl, by decide, rfl⟩, ⟨_, rfl, by decide, rfl⟩⟩

theorem witness_StartBeginsSession :
    (({ base with started := false } : State).started = false ∧ cfgT.valid = true) ∧
    base.started = true ∧ ({ cfgT with n := 0 } : Config).valid = false := by decide

theorem witness_KillInterrupts :
    terminal (dev .frWrite []).seq = false ∧ terminal (dev .halt []).seq = true := by decide

theorem witness_UnansweredTransactionWaits :
    base.env.nextDev = none ∧ base.env.nextSink = none ∧
    ∀ j < base.cfg.cirLen, (base.peek .cb j).isSome = true := by decide

/-- Every operation named in a frame gives a next state, on an `OK` and on a `FAIL` answer. -/
theorem witness_frames_device :
    ([Instr.poll, .clrGood, .rdLen, .rdTs, .frDiag, .clrErr, .rxRst, .reDiag, .arm, .rdFrame, .accF,
      .accL, .statusRd, .statusClr 0, .rxEnable .immediate, .rxReset, .flenRd, .frameRd 0, .tsRd .rx,
      .accRd 1 0, .diagRd].all fun i =>
        completes (exec i { dev .frAcc [.ok 0] with remaining := 1 }) &&
        completes (exec i { dev .frAcc [.fail] with remaining := 1 })) = true := by decide

theorem witness_frames_store :
    (∃ t, exec .serOpen (sink .frOpen [.ok]) = .next t) ∧
    (∃ t, exec .serWr (sink .frWrite [.ok]) = .next t) ∧
    (∃ t, exec (.fileOpen 5) (sink .idle [.ok]) = .next t) ∧
    (∃ t, exec (.fileWrite 5 []) (sink .idle [.ok]) = .next t) :=
  ⟨⟨_, rfl⟩, ⟨_, rfl⟩, ⟨_, rfl⟩, ⟨_, rfl⟩⟩

theorem witness_frames_silent :
    ([Instr.stop, .xIdx, .count, .accInit, .kill].all fun i => completes (exec i base)) = true := by
  decide

theorem witness_StartEstablishesInvariant :
    ∃ t, exec (.start cfgT) { base with started := false } = .next t := ⟨_, rfl⟩

/-- A state in the middle of a read meets the invariant (`StepKeepsInvariant`,
`InvariantPreventsBadAccess`). -/
theorem witness_invariant_midRead : Invariant midRead := by
  constructor <;> decide

theorem witness_StepKeepsInvariant_next : ∃ t, step midRead = .next t := ⟨_, rfl⟩

/-- `StepKeepsCompletedWriteCount` and `BoundedSessionWritesExactlyBound`: a completed write not counted
yet, and a bounded session at its end. -/
theorem witness_counts_beforeCount :
    beforeCount.started = true ∧ hostOnly beforeCount ∧ countsWrites beforeCount ∧
      boundHeld beforeCount ∧ ∃ t, step beforeCount = .next t := by
  refine ⟨rfl, fun e he => (by cases he), rfl, fun m hm => ?_, _, rfl⟩
  cases hm; exact ⟨by decide, fun _ => by decide⟩

theorem witness_counts_atBound :
    ∃ t, step { beforeCount with seq := .idle, frameCount := 1 } = .next t ∧ t.seq = .done ∧
      countsWrites { beforeCount with seq := .idle, frameCount := 1 } ∧
      boundHeld { beforeCount with seq := .idle, frameCount := 1 } := by
  refine ⟨_, rfl, rfl, rfl, fun m hm => ?_⟩
  cases hm; exact ⟨by decide, fun h => by cases h⟩

/-- A `KILL` given in `FR_COUNT` leaves one completed write uncounted, and the state it leaves meets the
clause of `countsWrites` for `KILLED` and steps on a further `KILL`. -/
theorem witness_counts_killed :
    step { beforeCount with env := { beforeCount.env with turns := killTwice } } = .next killedThere ∧
      killedThere.started = true ∧ hostOnly killedThere ∧ countsWrites killedThere ∧
      completedWrites killedThere.env.trace = killedThere.frameCount + 1 ∧
      ∃ t, step killedThere = .next t := by
  refine ⟨rfl, rfl, fun e he => ?_, ⟨by decide, by decide⟩, by decide, _, rfl⟩
  cases he with
  | head => rfl
  | tail _ h => cases h

/-- A halted state with its cause, in which a word is still presented, meets the invariant: the premises
of the last clause of `EventsGrowAndHaltCauseIsSticky`. -/
theorem witness_halted_step :
    Invariant haltedThere ∧ haltedThere.haltCause ≠ none ∧ ∃ t, step haltedThere = .next t :=
  ⟨by constructor <;> decide, by decide, _, rfl⟩

/-- `SequencerFollowsItsTable`, `ConfigurationIsReadOnly`, `CounterChangesOnlyInCount`,
`EventsGrowAndHaltCauseIsSticky`, `AtMostOneTransactionPerStep`: a started state whose step gives a next
state. -/
theorem witness_started_step :
    midRead.env.turns = [] ∧ midRead.started = true ∧ ∃ t, step midRead = .next t := ⟨rfl, rfl, _, rfl⟩

theorem witness_ChunkFailureDropsCapture :
    (dev .frAcc [.fail, .ok 0]).started = true ∧ (dev .frAcc [.fail, .ok 0]).env.turns = [] ∧
      (dev .frAcc [.fail, .ok 0]).seq = .frAcc ∧
      (dev .frAcc [.fail, .ok 0]).env.devAnswers.take freeDev 2 = [.fail, .ok 0] := by decide

theorem witness_OversizedFrameIsDropped :
    (dev .frLen [.ok 9, .ok 0]).started = true ∧ (dev .frLen [.ok 9, .ok 0]).env.turns = [] ∧
      (dev .frLen [.ok 9, .ok 0]).seq = .frLen ∧ (dev .frLen [.ok 9, .ok 0]).captureOk = false ∧
      (dev .frLen [.ok 9, .ok 0]).env.devAnswers.take freeDev 2 = [.ok 9, .ok 0] ∧
      (dev .frLen [.ok 9, .ok 0]).cfg.frameCap < 9 := by decide

theorem witness_ErrorPathClearsResetsDrains :
    (dev .reClr [.ok 0, .ok 0, .ok 0]).started = true ∧ (dev .reClr [.ok 0, .ok 0, .ok 0]).env.turns = [] ∧
      (dev .reClr [.ok 0, .ok 0, .ok 0]).seq = .reClr ∧
      (dev .reClr [.ok 0, .ok 0, .ok 0]).env.devAnswers.take freeDev 3 = [.ok 0, .ok 0, .ok 0] := by decide

theorem witness_RecordRoundTrip : 12 ≤ (List.replicate 12 (0x2A : Byte)).length := by decide

/-- An exact multiple of the chunk, and a rest of one byte. -/
theorem witness_AccReadCopiesExactlyTheBytes :
    (1 ≤ 8 ∧ 1 ≤ 4 ∧ ([1, 2] : List Nat).length = (8 + 4 - 1) / 4) ∧
    (1 ≤ 5 ∧ 1 ≤ 4 ∧ ([1, 2] : List Nat).length = (5 + 4 - 1) / 4) := by decide

/-- A complete read and one that fails in the middle. -/
theorem witness_MachineRunsAccRead :
    (dev .frAcc0 [.ok 1, .ok 2, .ok 3]).started = true ∧ (dev .frAcc0 [.ok 1, .ok 2, .ok 3]).env.turns = [] ∧
      (dev .frAcc0 [.ok 1, .ok 2, .ok 3]).seq = .frAcc0 ∧ 1 ≤ cfgT.n ∧ 1 ≤ cfgT.chunk ∧
      (accRead cfgT.cirLen cfgT.chunk cfgT.accBase
        ((dev .frAcc0 [.ok 1, .ok 2, .ok 3]).env.devAnswers.take freeDev cfgT.cirLen)).result ≠ .unanswered ∧
      (accRead cfgT.cirLen cfgT.chunk cfgT.accBase
        ((dev .frAcc0 [.ok 1, .fail]).env.devAnswers.take freeDev cfgT.cirLen)).result ≠ .unanswered := by
  decide

/-- A device that shows an unknown status bit and neither event, for ever. -/
theorem witness_PollMayRepeatForEver :
    (polling (.cycle (.ok 0x08) [])).started = true ∧ (polling (.cycle (.ok 0x08) [])).env.turns = [] ∧
      (polling (.cycle (.ok 0x08) [])).seq = .armed ∧
      (polling (.cycle (.ok 0x08) [])).env.devAnswers = ⟨[], .cycle (.ok 0x08) []⟩ ∧
      0x08 % 2 ^ cfgT.statusW &&& cfgT.goodMask = 0 ∧ 0x08 % 2 ^ cfgT.statusW &&& cfgT.errMask = 0 := by
  decide

end Sys2Proof.Tests
end

section
/-! The Reception State Machine (40_reception_state_machine.md): where RXCAP's own turn takes `seq`, what
changes the counter, and the operations that send one device command and go on. -/

namespace Sys2Proof.Machine

open Sys2Proof

/-! ## Where a step takes `seq` -/

/-- With no turn scripted, a step that gives a next state is RXCAP's own. -/
theorem coreRuns_of_step {s t : State} (hturns : s.env.turns = []) (h : step s = .next t) :
    coreRuns s t := by
  rcases step_next h with ⟨ts, ⟨_, rfl⟩ | hcore, hrun⟩ | ⟨e, ts, i, hpresent, _⟩
  · rwa [← hturns, State.withTurns_self] at hrun
  · simp [hturns] at hcore
  · simp [hturns] at hpresent

/-- RXCAP's own turn takes `seq` to one of its successors (10_state.md R21), or waits (log 6). -/
theorem coreRuns_successors {s t : State} (h : coreRuns s t) : t = s ∨ t.seq ∈ successors s.seq := by
  obtain ⟨_, _, ⟨i, hsel, heff⟩ | ⟨c, hc, rfl⟩⟩ := coreRuns_cases h
  · exact heff.target.imp_right (selected_targets hsel t.seq)
  · exact .inr (by simp [hc, successors])

/-- A step with no turn scripted that moves `seq` takes it to one of its successors. -/
theorem step_seq_mem_successors {s t : State} (hturns : s.env.turns = []) (h : step s = .next t)
    (hne : t.seq ≠ s.seq) : t.seq ∈ successors s.seq :=
  (coreRuns_successors (coreRuns_of_step hturns h)).resolve_left (fun hts => hne (by rw [hts]))

/-- The one way from outside `FRAME_READY` into it leads to `FR_CLR`. -/
theorem eq_frClr_of_mem_successors {q q' : Seq} (h : q' ∈ successors q)
    (hq : macroState q ≠ some .frameReady) (hq' : macroState q' = some .frameReady) : q' = .frClr := by
  revert q'
  cases q with
  | frClr | frLen | frData | frIdx | frTs | frAcc0 | frAcc | frDiag | frOpen | frWrite | frCount =>
    exact absurd rfl hq
  | idle | armed | reClr | reRst | reDiag | done | halt | killed | reserved _ =>
    simp [successors, macroState]

theorem eq_reClr_of_reRst_mem_successors {q : Seq} (h : .reRst ∈ successors q) : q = .reClr := by
  cases q <;> simp [successors] at h ⊢

theorem eq_frWrite_of_frCount_mem_successors {q : Seq} (h : .frCount ∈ successors q) :
    q = .frWrite := by
  cases q <;> simp [successors] at h ⊢

/-! ## `COUNT` and the counter -/

theorem selected_eq_count_iff {q : Seq} {cond : Bool} :
    selected q cond = some .count ↔ q = .frCount ∧ cond = false := by
  cases q <;> cases cond <;> simp [selected]

/-- RXCAP's own turn leaves the counter alone, or is `COUNT`, which never waits. -/
theorem coreRuns_frameCount {s t : State} (h : coreRuns s t) :
    (s.seq ≠ .frCount ∧ t.frameCount = s.frameCount) ∨
    (s.seq = .frCount ∧ t = { s with frameCount := s.frameCount + 1, seq := .idle }) := by
  obtain ⟨_, _, ⟨i, hsel, hexec⟩ | ⟨hsel, rfl⟩⟩ := h
  · by_cases hi : i = .count
    · subst hi
      cases hexec
      exact .inr ⟨(selected_eq_count_iff.1 hsel).1, rfl⟩
    · have hcount := (exec_effect (selected_format hsel) hexec).count
      refine .inl ⟨fun hq => hi ?_, by simpa [hi] using hcount⟩
      simpa [hq, condBit, selected, eq_comm] using hsel
  · refine .inl ⟨fun hq => ?_, by simp⟩
    simp [hq, condBit, selected] at hsel

/-- A presented instruction never changes the counter of a started RXCAP. -/
theorem presented_frameCount {i : Instr} {s t : State} (hf : i.format ≠ .seq)
    (hs : s.started = true) (h : exec i s = .next t) : t.frameCount = s.frameCount := by
  rcases presented_cases hf hs h with rfl | ⟨_, _, _, _, rfl⟩ | ⟨_, _, _, _, rfl⟩ | ⟨_, _, rfl⟩ <;> rfl

/-- A step of a started RXCAP leaves the counter alone, or is `COUNT` (10_state.md R28). -/
theorem step_frameCount {s t : State} (hs : s.started = true) (h : step s = .next t) :
    t.frameCount = s.frameCount ∨
    (s.seq = .frCount ∧ t.seq = .idle ∧ t.frameCount = s.frameCount + 1) := by
  rcases step_next h with ⟨ts, _, hrun⟩ | ⟨e, ts, i, _, hf, hd, hexec⟩
  · rcases coreRuns_frameCount hrun with ⟨_, hcount⟩ | ⟨hq, rfl⟩
    · exact .inl hcount
    · exact .inr ⟨hq, rfl, rfl⟩
  · exact .inl (presented_frameCount (s := s.withTurns ts) (decode_format hd hf ▸ hf) hs hexec)

/-- `SERWR` goes on to `COUNT` only when the store has answered `OK` (42_record_serializer.md R172). -/
theorem execSerWr_frCount {s t : State} (h : execSerWr s = .next t) (ht : t.seq = .frCount)
    (hs : s.seq ≠ .frCount) : ∃ rest, s.env.nextSink = some (.ok, rest) := by
  obtain ⟨_, _, _, h⟩ := memRead_next h
  rcases withSink_next h with ⟨_, rfl⟩ | ⟨rest, _, h⟩ | ⟨rest, hok, _⟩
  · exact absurd ht hs
  · cases h
    simp at ht
  · exact ⟨rest, hok⟩

/-- RXCAP's own turn reaches `FR_COUNT` only by a `SERWR` answered `OK`. -/
theorem coreRuns_to_frCount {s t : State} (h : coreRuns s t) (ht : t.seq = .frCount) :
    s.seq = .frWrite ∧ ∃ rest, s.env.nextSink = some (.ok, rest) := by
  have hs : s.seq ≠ .frCount := by
    rcases coreRuns_frameCount h with ⟨hs, _⟩ | ⟨_, rfl⟩
    · exact hs
    · cases ht
  have hmem : t.seq ∈ successors s.seq :=
    (coreRuns_successors h).resolve_left (fun hts => hs (hts ▸ ht))
  have hq : s.seq = .frWrite := eq_frWrite_of_frCount_mem_successors (ht ▸ hmem)
  obtain ⟨_, _, ⟨i, hsel, hexec⟩ | ⟨hsel, _⟩⟩ := h
  · obtain rfl : i = .serWr := by simpa [hq, condBit, selected, eq_comm] using hsel
    exact ⟨hq, execSerWr_frCount hexec ht hs⟩
  · simp [hq, condBit, selected] at hsel

/-! ## One device command, then the next state of the sequencer -/

/-- A device command whose failure is the hard stop and after which `seq` moves to `q`: the state after
either answer (60_exceptions.md R236). -/
theorem withDevOrHalt_goto (c : DevCmd) (q : Seq) (s : State) (rest : Answers DevAnswer) :
    (∀ d, s.env.nextDev = some (.ok d, rest) →
      withDevOrHalt c s (fun _ t => .next { t with seq := q }) = .next { s with
        env := afterDev s c (.ok d) rest
        seq := q }) ∧
    (s.env.nextDev = some (.fail, rest) →
      withDevOrHalt c s (fun _ t => .next { t with seq := q }) = .next { s with
        env := afterDev s c .fail rest
        haltCause := some (.deviceIoFatal (devName c))
        seq := .halt }) :=
  ⟨fun _ hok => withDevOrHalt_ok hok, fun hfail => withDev_fail hfail⟩

/-! ## The obligations -/

/-- Settles O14: the effect is that of one device command; of the successors of a state outside
`FRAME_READY` only `FR_CLR` lies in it. -/
theorem clrGoodClearsGoodMask : Obligations.ClrGoodClearsGoodMask := by
  refine ⟨by decide, fun s rest => withDevOrHalt_goto (.statusClr s.cfg.goodMask) .frLen s rest,
    fun s t hturns h hout hin => ?_⟩
  have hne : t.seq ≠ s.seq := fun hts => hout (hts ▸ hin)
  exact eq_frClr_of_mem_successors (step_seq_mem_successors hturns h hne) hout hin

/-- Settles O25: `COUNT` is the only operation whose effect changes the counter, and `SERWR` the only one
with `FR_COUNT` among its targets. -/
theorem countAddsOne : Obligations.CountAddsOne :=
  ⟨by decide, fun _ => rfl, fun _ _ hturns h => coreRuns_to_frCount (coreRuns_of_step hturns h),
    fun _ _ hs h hne => (step_frameCount hs h).resolve_left hne⟩

/-- Settles O27: the effect is that of one device command; `RE_RST` is a successor of `RE_CLR` only. -/
theorem rxRstResetsReceiver : Obligations.RxRstResetsReceiver := by
  refine ⟨by decide, withDevOrHalt_goto .rxReset .reDiag, fun s t hturns h hs ht => ?_⟩
  have hmem := step_seq_mem_successors hturns h (ht ▸ hs.symm)
  exact eq_reClr_of_reRst_mem_successors (ht ▸ hmem)

/-- Settles O26: the effect is that of one device command, with the configured mask as its operand. -/
theorem clrErrClearsWholeMask : Obligations.ClrErrClearsWholeMask :=
  ⟨by decide, fun s rest => withDevOrHalt_goto (.statusClr s.cfg.errMask) .reRst s rest⟩

end Sys2Proof.Machine
end

section
/-! The Accumulator Chunk Reader (41_accumulator_chunk_reader.md): how a chunked read starts. -/

namespace Sys2Proof.Machine

open Sys2Proof

/-- `ACCINIT` in the terms the chunk reads use: the whole CIR, `L` bytes, remains to be read from the
beginning of CB, and the read loop is entered. -/
theorem exec_accInit (s : State) :
    exec .accInit s = .next { s with remaining := s.cfg.cirLen, cursor := 0, seq := .frAcc } := rfl

/-- Settles O19: the word is the dispatch word of `FR_ACC0`, and `L` is four bytes for each of the `N`
samples. -/
theorem accInitStartsAtZero : Obligations.AccInitStartsAtZero := by
  refine ⟨by decide, fun s => ?_⟩
  have hlen : s.cfg.cirLen = 4 * s.cfg.n := rfl
  rw [exec_accInit, hlen]

end Sys2Proof.Machine
end

section
/-! The Record Serializer (42_record_serializer.md): the two answers of the store to a command, and how the
file of a frame is opened. -/

namespace Sys2Proof.Machine

open Sys2Proof

/-! ## The answers of the store -/

theorem withSink_fail {c : SinkCmd} {s : State} {f g : State → Out} {r : Answers SinkAnswer}
    (h : s.env.nextSink = some (.fail, r)) : withSink c s f g = f (s.sinkAnswered c .fail r) := by
  simp [withSink, h]

theorem withSink_ok {c : SinkCmd} {s : State} {f g : State → Out} {r : Answers SinkAnswer}
    (h : s.env.nextSink = some (.ok, r)) : withSink c s f g = g (s.sinkAnswered c .ok r) := by
  simp [withSink, h]

/-! ## The store after an open -/

/-- An open answered `OK` leaves the file of its path empty (42_record_serializer.md R173). -/
theorem readCell_fileOpen_same (fs : FileStore) (p : Path) :
    readCell (storeEffect (.fileOpen p) .ok fs) p = some [] :=
  readCell_writeCells_inside fs p 0 [[]] Nat.zero_lt_one

theorem readCell_fileOpen_ne (fs : FileStore) {p q : Path} (h : q ≠ p) :
    readCell (storeEffect (.fileOpen p) .ok fs) q = readCell fs q :=
  readCell_writeCells_outside fs p q [[]] (Nat.lt_or_gt_of_ne h)

/-! ## `SEROPEN` -/

theorem exec_serOpen_ok {s : State} {r : Answers SinkAnswer} (h : s.env.nextSink = some (.ok, r)) :
    exec .serOpen s = .next { s.sinkAnswered (.fileOpen (pathOfFrame s.cfg s.frameIndex)) .ok r with
      curPath := pathOfFrame s.cfg s.frameIndex
      seq := .frWrite } := by
  rw [exec, execSerOpen, withSink_ok h]

theorem exec_serOpen_fail {s : State} {r : Answers SinkAnswer} (h : s.env.nextSink = some (.fail, r)) :
    exec .serOpen s = .next (raise (.fileOpenFailure (pathOfFrame s.cfg s.frameIndex))
      (s.sinkAnswered (.fileOpen (pathOfFrame s.cfg s.frameIndex)) .fail r)) := by
  rw [exec, execSerOpen, withSink_fail h]

/-- Settles O23: the state after either answer is that of `exec_serOpen_ok` or `exec_serOpen_fail`, and an
`OK` open writes the one cell of the path. -/
theorem serOpenTruncatesOrLogs : Obligations.SerOpenTruncatesOrLogs := by
  refine ⟨by decide, ?_⟩
  rintro s rest p rfl
  refine ⟨fun hok => ⟨_, exec_serOpen_ok hok, ?_, fun q hq => ?_, rfl⟩, fun hfail => exec_serOpen_fail hfail⟩
  · exact readCell_fileOpen_same s.files _
  · exact readCell_fileOpen_ne s.files hq

end Sys2Proof.Machine
end

section
/-! Timestamp extraction (43_timestamp_extraction.md): `TS40` as the number of its bytes, and as their
concatenation. -/

namespace Sys2Proof.Machine

open Sys2Proof

/-! ## `TS40` -/

/-- Up to eight bytes the shifts lose nothing, and the loop of `TS40` gives `le_n`
(43_timestamp_extraction.md R190). -/
theorem ts40_toNat {b : List Byte} (h : b.length ≤ 8) : (ts40 b).toNat = leNat b := by
  induction b with
  | nil => rfl
  | cons x b ih =>
    have hlen : b.length ≤ 7 := Nat.le_of_succ_le_succ h
    have hb : (ts40 b).toNat = leNat b := ih (by omega)
    have hlt : (ts40 b).toNat < 2 ^ 56 := by
      calc (ts40 b).toNat = leNat b := hb
        _ < 256 ^ b.length := leNat_lt b
        _ ≤ 256 ^ 7 := Nat.pow_le_pow_right (by decide) hlen
        _ = 2 ^ 56 := by decide
    calc (ts40 (x :: b)).toNat = (ts40 b).toNat * 256 + x.toNat := shift_or_toNat (ts40 b) x hlt
      _ = leNat (x :: b) := by rw [hb, leNat]; omega

/-- Only the low 40 bits of the value of five bytes can be set. -/
theorem ts40_high_eq_zero {b : List Byte} (h : b.length = 5) :
    (ts40 b).extractLsb' 40 24 = 0#24 := by
  have hlt : (ts40 b).toNat < 2 ^ 40 := by
    rw [ts40_toNat (by omega)]
    simpa [h] using leNat_lt b
  apply BitVec.eq_of_toNat_eq
  rw [BitVec.extractLsb'_toNat, Nat.shiftRight_eq_div_pow, Nat.div_eq_of_lt hlt]
  rfl

theorem append_byte_toNat {w : Nat} (x : BitVec w) (b : Byte) :
    (x ++ b).toNat = b.toNat + 256 * x.toNat := by
  rw [BitVec.toNat_append, ← Nat.shiftLeft_add_eq_or_of_lt b.isLt, Nat.shiftLeft_eq]
  omega

/-- `TS40` of five bytes is their concatenation, the last byte highest, zero-extended. -/
theorem ts40_eq_append (b₀ b₁ b₂ b₃ b₄ : Byte) :
    ts40 [b₀, b₁, b₂, b₃, b₄] = 0#24 ++ b₄ ++ b₃ ++ b₂ ++ b₁ ++ b₀ := by
  apply BitVec.eq_of_toNat_eq
  rw [ts40_toNat (by simp)]
  simp only [append_byte_toNat, leNat, BitVec.toNat_ofNat, Nat.zero_mod]

/-! ## `RDTS` -/

/-- After `FAIL`, a command of an operation without a softer answer is the hard stop (60_exceptions.md R236). -/
theorem withDevOrHalt_fail {c : DevCmd} {s : State} {g : Nat → State → Out} {r : Answers DevAnswer}
    (h : s.env.nextDev = some (.fail, r)) :
    withDevOrHalt c s g = .next (raise (.deviceIoFatal (devName c)) (s.devAnswered c .fail r)) :=
  withDev_fail h

/-- The five bytes of format TS5 (30_encoding.md R92), listed. -/
theorem answerBytes_five (d : Nat) :
    answerBytes 5 d = [dataByte d 0, dataByte d 1, dataByte d 2, dataByte d 3, dataByte d 4] :=
  answerBytes_eq_map 5 d

theorem exec_rdTs_ok {s : State} {d : Nat} {r : Answers DevAnswer}
    (h : s.env.nextDev = some (.ok d, r)) :
    exec .rdTs s = .next { s.devAnswered (.tsRd .rx) (.ok d) r with
      rxTs := ts40 (answerBytes 5 d)
      seq := .frAcc0 } := by
  rw [exec, execRdTs, withDevOrHalt_ok h]

theorem exec_rdTs_fail {s : State} {r : Answers DevAnswer} (h : s.env.nextDev = some (.fail, r)) :
    exec .rdTs s = .next (raise (.deviceIoFatal .tsRd) (s.devAnswered (.tsRd .rx) .fail r)) := by
  rw [exec, execRdTs, withDevOrHalt_fail h, devName]

/-! ## The obligations -/

/-- Settles O55: five bytes are within the eight of `ts40_toNat`, and their value is below `2 ^ 40`. -/
theorem timestampIsFortyBitLittleEndian : Obligations.TimestampIsFortyBitLittleEndian := by
  intro b₀ b₁ b₂ b₃ b₄
  refine ⟨?_, ts40_high_eq_zero rfl⟩
  rw [ts40_toNat (by simp)]
  simp only [leNat]
  omega

/-- Settles O18: the state after either answer is that of `exec_rdTs_ok` or `exec_rdTs_fail`, and the
value stored is the concatenation of the answered bytes. -/
theorem rdTsStoresTimestamp : Obligations.RdTsStoresTimestamp := by
  refine ⟨by decide, fun s rest => ⟨fun d hok => ?_, fun hfail => exec_rdTs_fail hfail⟩⟩
  rw [exec_rdTs_ok hok, answerBytes_five, ts40_eq_append]
  rfl

end Sys2Proof.Machine
end

section
/-! The encoding (30_encoding.md): the decoder and the encoder are inverse, and which words of format SEQ
select an operation. -/

namespace Sys2Proof.Machine

open Sys2Proof

/-! ## Dispatch words -/

/-- A word with bits 2:1 zero is the dispatch word of its own fields (30_encoding.md R99). -/
theorem dispatchCode_fields (d : BitVec 8) (h : d.extractLsb' 1 2 = 0#2) :
    dispatchCode (Seq.ofCode (d.extractLsb' 3 5)) (d.getLsbD 0) = d := by
  revert d
  decide

theorem dispatchCode_bits (q : Seq) (cond : Bool) :
    (dispatchCode q cond).extractLsb' 3 5 = q.code ∧ (dispatchCode q cond).extractLsb' 1 2 = 0#2 ∧
      (dispatchCode q cond).getLsbD 0 = cond := by
  cases q with
  | reserved c => revert c; cases cond <;> decide
  | _ => cases cond <;> decide

/-- What a word of format SEQ selects, by its fields (30_encoding.md R101, R103 (1)). -/
theorem decodeSeq_eq_some_iff {d : BitVec 8} {i : Instr} :
    decodeSeq d = some i ↔ ∃ q cond, d = dispatchCode q cond ∧ selected q cond = some i := by
  constructor
  · intro h
    have hbits : d.extractLsb' 1 2 = 0#2 := by
      by_contra hne
      simp [decodeSeq, hne] at h
    have hd := dispatchCode_fields d hbits
    exact ⟨_, _, hd.symm, by rw [← decodeSeq_dispatchCode, hd, h]⟩
  · rintro ⟨q, cond, rfl, h⟩
    rw [decodeSeq_dispatchCode, h]

/-- The operation a sequencer state selects has that state's word (30_encoding.md R107). -/
theorem encode_of_selected {q : Seq} {cond : Bool} {i : Instr} (h : selected q cond = some i) :
    encode i = seqWord q cond := by
  cases q <;> cases cond <;> simp [selected] at h <;> subst h <;> rfl

/-! ## The decoder and the encoder are inverse -/

theorem decode_seq_nil (d : BitVec 8) :
    decode ⟨.seq, d, []⟩ =
      match decodeSeq d with
      | some i => .ok i
      | none => .error .illegalDispatchWord := by
  cases h : decodeSeq d <;> simp [decode, h]

theorem decode_seqWord {q : Seq} {cond : Bool} {i : Instr} (h : selected q cond = some i) :
    decode (seqWord q cond) = .ok i := by
  rw [seqWord, decode_seq_nil, decodeSeq_dispatchCode, h]

theorem decode_encode (i : Instr) : decode (encode i) = .ok i := by
  cases i with
  | arm | stop | poll | clrGood | rdLen | rdFrame | xIdx | rdTs | accInit | accL | accF | frDiag
  | serOpen | serWr | count | clrErr | rxRst | reDiag => exact decode_seqWord rfl
  | _ => rfl

theorem decodeSeq_sound {d : BitVec 8} {ops : List Operand} {i : Instr}
    (h : decode ⟨.seq, d, ops⟩ = .ok i) : ⟨.seq, d, ops⟩ = encode i := by
  cases ops with
  | cons _ _ => simp [decode] at h
  | nil =>
    cases hd : decodeSeq d with
    | none => simp [decode_seq_nil, hd] at h
    | some j =>
      obtain rfl : j = i := by simpa [decode_seq_nil, hd] using h
      obtain ⟨q, cond, rfl, hsel⟩ := decodeSeq_eq_some_iff.1 hd
      exact (encode_of_selected hsel).symm

theorem decodeDri_sound {code : Nat} {ops : List Operand} {i : Instr}
    (h : decodeDri code ops = .ok i) : ⟨.dri, BitVec.ofNat 8 code, ops⟩ = encode i := by
  unfold decodeDri at h
  repeat' split at h
  all_goals cases h
  all_goals rfl

theorem decodeSnk_sound {code : Nat} {ops : List Operand} {i : Instr}
    (h : decodeSnk code ops = .ok i) : ⟨.snk, BitVec.ofNat 8 code, ops⟩ = encode i := by
  unfold decodeSnk at h
  repeat' split at h
  all_goals cases h
  all_goals rfl

theorem decodeHost_sound {code : Nat} {ops : List Operand} {i : Instr}
    (h : decodeHost code ops = .ok i) : ⟨.host, BitVec.ofNat 8 code, ops⟩ = encode i := by
  unfold decodeHost at h
  repeat' split at h
  all_goals cases h
  all_goals rfl

/-- No word but the encoding of an instruction is accepted as that instruction. -/
theorem eq_encode_of_decode {e : Encoded} {i : Instr} (h : decode e = .ok i) : e = encode i := by
  obtain ⟨f, c, ops⟩ := e
  have hc : BitVec.ofNat 8 c.toNat = c := by simp
  cases f with
  | seq => exact decodeSeq_sound h
  | dri => exact hc ▸ decodeDri_sound h
  | snk => exact hc ▸ decodeSnk_sound h
  | host => exact hc ▸ decodeHost_sound h

/-! ## The selected operation exists -/

/-- In every state that is neither terminal nor reserved some operation is selected, under every condition
bit the state can have. -/
theorem exists_selected {s : State} (ht : terminal s.seq = false) (hr : ∀ c, s.seq ≠ .reserved c) :
    ∃ i, selected s.seq (condBit s) = some i := by
  cases hq : s.seq with
  | idle => cases condBit s <;> exact ⟨_, rfl⟩
  | frAcc => cases condBit s <;> exact ⟨_, rfl⟩
  | reserved c => exact absurd hq (hr c)
  | done | halt | killed => simp [hq, terminal] at ht
  | _ => simp [condBit, hq, selected]

/-- The words that select no operation (30_encoding.md R101, R103 (1)). -/
theorem decodeSeq_eq_none_iff (d : BitVec 8) :
    decodeSeq d = none ↔
      d.extractLsb' 1 2 ≠ 0#2 ∨ 16 ≤ (d.extractLsb' 3 5).toNat ∨
      (d.getLsbD 0 = true ∧ (d.extractLsb' 3 5).toNat ≠ 0 ∧ (d.extractLsb' 3 5).toNat ≠ 8) := by
  revert d
  decide

/-- The condition bit of 30_encoding.md R99, in the terms of 10_state.md R34. -/
theorem condBit_iff (s : State) :
    condBit s = true ↔
      (s.seq = .idle ∧ ∃ m, s.cfg.maxFrames = some m ∧ m ≤ s.frameCount) ∨
      (s.seq = .frAcc ∧ s.cfg.chunk < s.remaining) := by
  cases hq : s.seq with
  | idle => cases hm : s.cfg.maxFrames <;> simp [condBit, hq, boundReached, hm]
  | frAcc => simp [condBit, hq, moreChunks]
  | _ => simp [condBit, hq]

/-! ## The obligations -/

/-- Settles O2: `decode_encode` gives the one direction, the soundness of each format's table the other. -/
theorem decodeAcceptsExactlyTheEncodings : Obligations.DecodeAcceptsExactlyTheEncodings :=
  fun _ i => ⟨eq_encode_of_decode, fun h => h ▸ decode_encode i⟩

/-- Settles O4: an operation with the dispatch word is what that word decodes to, which is the one
selected. -/
theorem dispatchSelectsExactlyOneOperation : Obligations.DispatchSelectsExactlyOneOperation := by
  intro s ht hr
  obtain ⟨i, hi⟩ := exists_selected ht hr
  have hword : encode i = ⟨.seq, dispatchWord s, []⟩ := encode_of_selected hi
  refine ⟨i, ⟨selected_format hi, hword⟩, fun j ⟨_, hj⟩ => ?_⟩
  have hdecode : decode (encode i) = .ok j := by rw [hword, ← hj, decode_encode]
  simpa [decode_encode] using hdecode.symm

/-- Settles O1: each word is the encoding of its instruction. -/
theorem tableWordsDecode : Obligations.TableWordsDecode :=
  ⟨decode_encode .arm, decode_encode .stop, decode_encode .accF, decode_encode .serWr,
    decode_encode .reDiag, decode_encode (.accRd 3 6), decode_encode (.fileOpen 5), decode_encode .kill⟩

/-- Settles O3: the fields of `dispatchCode`, and the condition bit in the terms of R34. -/
theorem dispatchWordFields : Obligations.DispatchWordFields := by
  intro s
  obtain ⟨hcode, hzero, hcond⟩ := dispatchCode_bits s.seq (condBit s)
  exact ⟨hcode, hzero, by rw [dispatchWord, hcond, condBit_iff]⟩

/-- Settles O5: a word without operands is illegal exactly when it selects no operation. -/
theorem illegalDispatchWordsAreRejected : Obligations.IllegalDispatchWordsAreRejected := by
  intro d
  rw [← decodeSeq_eq_none_iff, decode_seq_nil]
  cases decodeSeq d <;> simp

end Sys2Proof.Machine
end

section
/-! One step (30_encoding.md section 4): what a step runs on RXCAP's own turn and on a presented word's,
and what it does where no operation is selected. -/

namespace Sys2Proof.Machine

open Sys2Proof

/-! ## The fetch -/

theorem fetch_of_no_turns {s : State} (h : s.env.turns = []) : fetch s = fetchCore s := by
  simp [fetch, h]

theorem fetch_of_core_turn {s : State} {ts : List Turn} (h : s.env.turns = .core :: ts) :
    fetch s = fetchCore (s.withTurns ts) := by
  simp [fetch, h]

theorem fetch_of_present {s : State} {e : Encoded} {ts : List Turn}
    (h : s.env.turns = .present e :: ts) (hf : e.format ≠ .seq) :
    fetch s = .word e (s.withTurns ts) := by
  cases hfmt : e.format with
  | seq => exact absurd hfmt hf
  | dri | snk | host => simp [fetch, h, hfmt]

theorem fetchCore_running {s : State} (hs : s.started = true) (ht : terminal s.seq = false) :
    fetchCore s = .word ⟨.seq, dispatchWord s, []⟩ s := by
  cases hq : s.seq with
  | done | halt | killed => simp [hq, terminal] at ht
  | _ => simp [fetchCore, hs, hq]

/-! ## The step -/

theorem step_of_decode {s t : State} {e : Encoded} {i : Instr} (hf : fetch s = .word e t)
    (hd : decode e = .ok i) : step s = exec i t := by
  simp [step, hf, hd]

theorem step_of_stop {s : State} {o : Out} (hf : fetch s = .stop o) : step s = o := by
  simp [step, hf]

/-- A dispatch word that selects nothing halts RXCAP (30_encoding.md R103 (1)). -/
theorem step_of_unselected {s t : State} (hf : fetch s = .word ⟨.seq, dispatchWord t, []⟩ t)
    (hsel : selected t.seq (condBit t) = none) :
    step s = .next (raise (.illegalSeq (dispatchWord t)) t) := by
  simp [step, hf, decode_seq_nil, decodeSeq_dispatchWord, hsel, undecodable]

/-- The dispatch word of a reserved code (30_encoding.md R99). -/
theorem dispatchCode_reserved (c : Fin 13) :
    dispatchCode (.reserved c) false = BitVec.ofNat 8 (8 * (19 + c.val)) := by
  revert c
  decide

/-! ## The obligations -/

/-- Settles O6: the three kinds of turn fetch the dispatch word or the presented word, and a word that
decodes is run. -/
theorem stepRunsDecodedInstruction : Obligations.StepRunsDecodedInstruction := by
  refine ⟨fun s i hturns hs ht hd => ?_, fun s ts i hturns hs ht hd => ?_,
    fun s e ts i hturns hf hd => step_of_decode (fetch_of_present hturns hf) hd⟩
  · exact step_of_decode ((fetch_of_no_turns hturns).trans (fetchCore_running hs ht)) hd
  · have hrun : fetchCore (s.withTurns ts) = .word ⟨.seq, dispatchWord s, []⟩ (s.withTurns ts) :=
      fetchCore_running (s := s.withTurns ts) hs ht
    exact step_of_decode ((fetch_of_core_turn hturns).trans hrun) hd

/-- Settles O7: the dispatch word of a reserved code selects nothing. -/
theorem reservedSequencerCodeHalts : Obligations.ReservedSequencerCodeHalts := by
  intro s c hturns hs hq
  have hcond : condBit s = false := by simp [condBit, hq]
  have hword : dispatchWord s = BitVec.ofNat 8 (8 * (19 + c.val)) := by
    rw [dispatchWord, hq, hcond, dispatchCode_reserved]
  have hfetch := (fetch_of_no_turns hturns).trans (fetchCore_running hs (by rw [hq]; rfl))
  rw [step_of_unselected hfetch (by simp [hq, selected]), hword]
  rfl

/-- Settles O8: in a terminal state the fetch of RXCAP's own turn is the end of the run. -/
theorem terminalStatesMakeNoStep : Obligations.TerminalStatesMakeNoStep := by
  intro s hturns hs
  have stop : ∀ o, fetchCore s = .stop o → step s = o :=
    fun o h => step_of_stop ((fetch_of_no_turns hturns).trans h)
  refine ⟨fun hq => stop _ ?_, fun hq => stop _ ?_, fun hq => stop _ ?_⟩ <;> simp [fetchCore, hs, hq]

/-- Settles O9: the condition bit of `IDLE` is `bound_reached`, and selects between the two operations. -/
theorem boundIsCheckedBeforeArming : Obligations.BoundIsCheckedBeforeArming := by
  intro s hturns hs hq
  refine ⟨fun m hm hle => ?_, fun m hm hlt => ?_, fun hm => ?_⟩ <;>
    refine step_selected hs hturns ?_
  · simp [hq, condBit, boundReached, hm, hle, selected]
  · simp [hq, condBit, boundReached, hm, Nat.not_le.2 hlt, selected]
  · simp [hq, condBit, boundReached, hm, selected]

/-- Settles O10: the condition bit of `FR_ACC` is `more_chunks`, and selects between the two operations. -/
theorem chunkLoopSelectsFullOrLast : Obligations.ChunkLoopSelectsFullOrLast := by
  intro s hturns hs hq
  refine ⟨fun hlt => step_selected hs hturns ?_, fun hle => step_selected hs hturns ?_⟩
  · simp [hq, condBit, moreChunks, hlt, selected]
  · simp [hq, condBit, moreChunks, Nat.not_lt.2 hle, selected]

end Sys2Proof.Machine
end

section
/-! The operations of the Reception State Machine (40_reception_state_machine.md), one equation per
operation and answer. -/

namespace Sys2Proof.Machine

open Sys2Proof

/-! ## Bytes of an answer in a memory -/

theorem readCell_writeCells_answerBytes (m : Memory) {a n j : Nat} (d : Nat) (h : j < n) :
    readCell (writeCells m a (answerBytes n d)) (a + j) = some (dataByte d j) := by
  rw [readCell_writeCells_inside m a j _ (by simpa using h), answerBytes_getElem? n d j h]

/-- The 32-bit pattern of four bytes, least significant first (30_encoding.md R95). -/
theorem ofNat_leNat_four (b₀ b₁ b₂ b₃ : Byte) :
    BitVec.ofNat 32 (leNat [b₀, b₁, b₂, b₃]) = b₃ ++ b₂ ++ b₁ ++ b₀ := by
  have hlt : leNat [b₀, b₁, b₂, b₃] < 256 ^ 4 := leNat_lt [b₀, b₁, b₂, b₃]
  apply BitVec.eq_of_toNat_eq
  rw [BitVec.toNat_ofNat, Nat.mod_eq_of_lt (by simpa using hlt)]
  simp only [append_byte_toNat, leNat, Nat.mul_zero, Nat.add_zero]

theorem frameIndexOf_four (c : Config) (b₀ b₁ b₂ b₃ : Byte) :
    frameIndexOf c [b₀, b₁, b₂, b₃] =
      if c.native = .little then b₃ ++ b₂ ++ b₁ ++ b₀ else b₀ ++ b₁ ++ b₂ ++ b₃ := by
  cases h : c.native
  · simpa [frameIndexOf, h, nativeNat] using ofNat_leNat_four b₀ b₁ b₂ b₃
  · simpa [frameIndexOf, h, nativeNat, beNat] using ofNat_leNat_four b₃ b₂ b₁ b₀

/-! ## The operations that begin with a device command whose failure is the hard stop -/

/-- The command with which such an operation begins (60_exceptions.md R236).  `ARM` stores before its
command, and a failed `ACC_RD` is no hard stop. -/
def hardStopCommand (s : State) : Instr → Option DevCmd
  | .poll => some .statusRd
  | .clrGood => some (.statusClr s.cfg.goodMask)
  | .rdLen => some .flenRd
  | .rdFrame => some (.frameRd s.frameLen)
  | .rdTs => some (.tsRd .rx)
  | .frDiag => some .diagRd
  | .clrErr => some (.statusClr s.cfg.errMask)
  | .rxRst => some .rxReset
  | .reDiag => some .diagRd
  | _ => none

theorem exec_eq_withDevOrHalt {i : Instr} {s : State} {c : DevCmd} (hi : hardStopCommand s i = some c) :
    ∃ g, exec i s = withDevOrHalt c s g := by
  cases i <;> cases hi
  all_goals
    simp only [exec, execPoll, execClrGood, execRdLen, execRdFrame, execRdTs, execFrDiag, execClrErr,
      execRxRst, execReDiag]
    exact ⟨_, rfl⟩

theorem exec_fail {i : Instr} {s : State} {c : DevCmd} {r : Answers DevAnswer}
    (hi : hardStopCommand s i = some c) (h : s.env.nextDev = some (.fail, r)) :
    exec i s = .next (raise (.deviceIoFatal (devName c)) (s.devAnswered c .fail r)) := by
  obtain ⟨g, hg⟩ := exec_eq_withDevOrHalt hi
  rw [hg, withDevOrHalt_fail h]

theorem exec_unanswered {i : Instr} {s : State} {c : DevCmd} (hi : hardStopCommand s i = some c)
    (h : s.env.nextDev = none) : exec i s = .next s := by
  obtain ⟨g, hg⟩ := exec_eq_withDevOrHalt hi
  rw [hg]
  exact withDev_unanswered h

/-- Such an operation waits, halts, or is answered `OK`. -/
theorem exec_hardStop_cases {i : Instr} {s : State} {c : DevCmd} (hi : hardStopCommand s i = some c) :
    exec i s = .next s ∨
    (∃ r, exec i s = .next (raise (.deviceIoFatal (devName c)) (s.devAnswered c .fail r))) ∨
    (∃ d r, s.env.nextDev = some (.ok d, r)) := by
  rcases h : s.env.nextDev with _ | ⟨_ | d, r⟩
  · exact .inl (exec_unanswered hi h)
  · exact .inr (.inl ⟨r, exec_fail hi h⟩)
  · exact .inr (.inr ⟨d, r, rfl⟩)

/-! ## The operations, answered -/

section

variable {s : State} {d : Nat} {r : Answers DevAnswer}

theorem exec_arm_ok (h : s.env.nextDev = some (.ok d, r)) :
    exec .arm s = .next { (s.devAnswered (.rxEnable .immediate) (.ok d) r).zeroFill with
      captureOk := false
      seq := .armed } := by
  rw [exec, execArm, withDev_ok h]

theorem exec_arm_fail (h : s.env.nextDev = some (.fail, r)) :
    exec .arm s = .next (raise (.deviceIoFatal .rxEnable)
      { (s.devAnswered (.rxEnable .immediate) .fail r).zeroFill with captureOk := false }) := by
  rw [exec, execArm, withDev_fail h]

theorem exec_poll_ok (h : s.env.nextDev = some (.ok d, r)) :
    exec .poll s = .next { s.devAnswered .statusRd (.ok d) r with
      statusLatch := answerStatus s.cfg d
      seq :=
        if answerStatus s.cfg d &&& s.cfg.goodMask ≠ 0 then .frClr
        else if answerStatus s.cfg d &&& s.cfg.errMask ≠ 0 then .reClr
        else .armed } := by
  rw [exec, execPoll, withDevOrHalt_ok h]
  by_cases hgood : answerStatus s.cfg d &&& s.cfg.goodMask = 0
  · by_cases herr : answerStatus s.cfg d &&& s.cfg.errMask = 0
    · simp [good, err, hgood, herr]
    · simp [good, err, hgood, herr, raise]
  · simp [good, hgood]

theorem exec_clrGood_ok (h : s.env.nextDev = some (.ok d, r)) :
    exec .clrGood s = .next { s.devAnswered (.statusClr s.cfg.goodMask) (.ok d) r with
      seq := .frLen } := by
  rw [exec, execClrGood, withDevOrHalt_ok h]

theorem exec_rdLen_ok (h : s.env.nextDev = some (.ok d, r)) :
    exec .rdLen s = .next { s.devAnswered .flenRd (.ok d) r with
      frameLen := d
      captureOk := if d ≤ s.cfg.frameCap then true else s.captureOk
      seq := if d ≤ s.cfg.frameCap then .frData else .frDiag } := by
  rw [exec, execRdLen, withDevOrHalt_ok h]
  by_cases hfits : d ≤ s.cfg.frameCap
  · simp [answerNumber, hfits]
  · simp [answerNumber, hfits, raise]

theorem exec_rdFrame_ok (h : s.env.nextDev = some (.ok d, r)) (hlen : s.frameLen ≤ s.cfg.frameCap) :
    exec .rdFrame s = .next { s.devAnswered (.frameRd s.frameLen) (.ok d) r with
      frameBuf := writeCells s.frameBuf 0 (answerBytes s.frameLen d)
      seq := .frIdx } := by
  rw [exec, execRdFrame, withDevOrHalt_ok h, memWrite_ok (by simpa using hlen)]
  rfl

theorem exec_xIdx {b : List Byte} (hin : s.cfg.idxOff + 4 ≤ s.cfg.frameCap)
    (hb : readCells (s.space .fb) s.cfg.idxOff 4 = some b) :
    exec .xIdx s = .next { s with frameIndex := frameIndexOf s.cfg b, seq := .frTs } := by
  rw [exec, execXIdx, memRead_ok hin hb]

theorem exec_frDiag_ok (h : s.env.nextDev = some (.ok d, r)) :
    exec .frDiag s = .next { s.devAnswered .diagRd (.ok d) r with
      diag := answerBytes s.cfg.diagW d
      seq := if s.captureOk = true then .frOpen else .idle } := by
  rw [exec, execFrDiag, withDevOrHalt_ok h]
  cases hc : s.captureOk <;> simp [hc]

theorem exec_clrErr_ok (h : s.env.nextDev = some (.ok d, r)) :
    exec .clrErr s = .next { s.devAnswered (.statusClr s.cfg.errMask) (.ok d) r with
      seq := .reRst } := by
  rw [exec, execClrErr, withDevOrHalt_ok h]

theorem exec_rxRst_ok (h : s.env.nextDev = some (.ok d, r)) :
    exec .rxRst s = .next { s.devAnswered .rxReset (.ok d) r with seq := .reDiag } := by
  rw [exec, execRxRst, withDevOrHalt_ok h]

theorem exec_reDiag_ok (h : s.env.nextDev = some (.ok d, r)) :
    exec .reDiag s = .next { s.devAnswered .diagRd (.ok d) r with
      diag := answerBytes s.cfg.diagW d
      seq := .idle } := by
  rw [exec, execReDiag, withDevOrHalt_ok h]
  rfl

end

/-! ## The obligations -/

/-- Settles O12: after either answer both buffers are those of the zero-fill. -/
theorem armZeroFillsAndEnables : Obligations.ArmZeroFillsAndEnables := by
  intro s a rest h
  cases a with
  | fail =>
    exact ⟨_, exec_arm_fail h, readCell_writeCells_zeros s.frameBuf s.cfg.frameCap,
      readCell_writeCells_zeros s.cirBuf s.cfg.cirLen, rfl⟩
  | ok d =>
    exact ⟨_, exec_arm_ok h, readCell_writeCells_zeros s.frameBuf s.cfg.frameCap,
      readCell_writeCells_zeros s.cirBuf s.cfg.cirLen, rfl⟩

/-- Settles O16: the answered bytes are written from address 0 on, and no others. -/
theorem rdFrameStoresFrameBytes : Obligations.RdFrameStoresFrameBytes := by
  refine fun s rest => ⟨fun d hok hlen => ?_, fun hfail => exec_fail (c := .frameRd s.frameLen) rfl hfail⟩
  refine ⟨_, exec_rdFrame_ok hok hlen, fun j hj => ?_, fun j hj => ?_, rfl⟩
  · have := readCell_writeCells_answerBytes s.frameBuf (a := 0) d hj
    rwa [Nat.zero_add] at this
  · exact readCell_writeCells_outside s.frameBuf 0 j _ (.inr (by simpa using hj))

/-- Settles O17: the four bytes are read as one range, and their pattern is their concatenation. -/
theorem xIdxExtractsFrameIndex : Obligations.XIdxExtractsFrameIndex := by
  intro s b₀ b₁ b₂ b₃ hin h₀ h₁ h₂ h₃
  have hread : readCells (s.space .fb) s.cfg.idxOff 4 = some [b₀, b₁, b₂, b₃] := by
    refine readCells_eq_some.2 ⟨rfl, fun i hi => ?_⟩
    interval_cases i <;> assumption
  rw [exec_xIdx hin hread, frameIndexOf_four]

/-- Settles O11: `STOP` makes no transaction, and its meaning is its effect. -/
theorem stopEmitsNotice : Obligations.StopEmitsNotice := fun _ => rfl

/-- Settles O13: the status value is that of `exec_poll_ok`. -/
theorem pollClassifiesStatus : Obligations.PollClassifiesStatus :=
  fun _ _ => ⟨fun _ hok => exec_poll_ok hok, fun hfail => exec_fail (c := .statusRd) rfl hfail⟩

/-- Settles O15: the two ends of `exec_rdLen_ok`, by whether the length fits. -/
theorem rdLenTestsCapacity : Obligations.RdLenTestsCapacity := by
  refine fun s rest => ⟨fun n hok hfits => ?_, fun n hok hover => ?_,
    fun hfail => exec_fail (c := .flenRd) rfl hfail⟩
  · rw [exec_rdLen_ok hok, if_pos hfits, if_pos hfits]
    rfl
  · rw [exec_rdLen_ok hok, if_neg (Nat.not_le.2 hover), if_neg (Nat.not_le.2 hover)]
    rfl

/-- Settles O22: the snapshot is the answered bytes, listed. -/
theorem frDiagGuardsSerializer : Obligations.FrDiagGuardsSerializer := by
  refine fun s rest => ⟨fun d hok => ?_, fun hfail => exec_fail (c := .diagRd) rfl hfail⟩
  rw [exec_frDiag_ok hok, answerBytes_eq_map]
  rfl

/-- Settles O28: the snapshot is the answered bytes, listed. -/
theorem reDiagEndsErrorCycle : Obligations.ReDiagEndsErrorCycle := by
  refine fun s rest => ⟨fun d hok => ?_, fun hfail => exec_fail (c := .diagRd) rfl hfail⟩
  rw [exec_reDiag_ok hok, answerBytes_eq_map]
  rfl

end Sys2Proof.Machine
end

section
/-! The Accumulator Chunk Reader (41_accumulator_chunk_reader.md): its two reads, `ACC_READ` on answers that
are all `OK`, and the machine's chunk loop as a run of `ACC_READ`. -/

namespace Sys2Proof.Machine

open Sys2Proof

/-! ## One chunk -/

section

variable {s : State} {n d j : Nat} (r : Answers DevAnswer)

theorem chunkStored_peek_raw (h : j ≤ n) : (s.chunkStored n d r).peek .raw j = some (dataByte d j) := by
  have := readCell_writeCells_answerBytes s.raw (a := 0) (n := n + 1) d (Nat.lt_succ_of_le h)
  rwa [Nat.zero_add] at this

theorem chunkStored_peek_raw_above (h : n < j) : (s.chunkStored n d r).peek .raw j = s.peek .raw j :=
  readCell_writeCells_outside s.raw 0 j _ (.inr (by simpa using h))

theorem chunkStored_peek_cb (h : j < n) :
    (s.chunkStored n d r).peek .cb (s.cursor + j) = ((answerBytes (n + 1) d).drop 1)[j]? :=
  readCell_writeCells_inside s.cirBuf s.cursor j _ (by simpa using h)

theorem chunkStored_peek_cb_outside (h : j < s.cursor ∨ s.cursor + n ≤ j) :
    (s.chunkStored n d r).peek .cb j = s.peek .cb j :=
  readCell_writeCells_outside s.cirBuf s.cursor j _ (by simpa using h)

/-- Byte `j` of the meaningful bytes is byte `j + 1` of the answer (41_accumulator_chunk_reader.md R152). -/
theorem getElem?_drop_answerBytes (h : j < n) :
    ((answerBytes (n + 1) d).drop 1)[j]? = some (dataByte d (j + 1)) := by
  rw [drop_answerBytes]
  simp [h]

end

/-! ## The two reads -/

/-- The state `ACCF` leaves on the answer `d` (41_accumulator_chunk_reader.md R152). -/
def State.fullChunkRead (s : State) (d : Nat) (r : Answers DevAnswer) : State :=
  { s.chunkStored s.cfg.chunk d r with
    cursor := s.cursor + s.cfg.chunk
    remaining := s.remaining - s.cfg.chunk
    seq := .frAcc }

/-- The state `ACCL` leaves on the answer `d` (41_accumulator_chunk_reader.md R153). -/
def State.lastChunkRead (s : State) (d : Nat) (r : Answers DevAnswer) : State :=
  { s.chunkStored s.remaining d r with
    cursor := s.cursor + s.remaining
    remaining := 0
    seq := .frDiag }

section

variable {s : State} {n d : Nat} {r : Answers DevAnswer}

theorem exec_accF_ok (h : s.env.nextDev = some (.ok d, r))
    (hfits : s.cursor + s.cfg.chunk ≤ s.cfg.cirLen) : exec .accF s = .next (s.fullChunkRead d r) :=
  readChunk_ok h le_rfl hfits

theorem exec_accL_ok (h : s.env.nextDev = some (.ok d, r)) (hlast : s.remaining ≤ s.cfg.chunk)
    (hfits : s.cursor + s.remaining ≤ s.cfg.cirLen) :
    exec .accL s = .next (s.lastChunkRead d r) :=
  readChunk_ok h hlast hfits

theorem readChunk_fail {k : State → Out} (h : s.env.nextDev = some (.fail, r)) :
    readChunk n s k = .next (raise (.chunkReadFailure s.cursor)
      (s.devAnswered (.accRd n (accOffset s.cfg s.cursor)) .fail r)) :=
  withDev_fail h

/-! ## One step of the chunk loop -/

/-- A step of the chunk loop whose read fails, be it of a full chunk or of the last one, abandons the
capture (41_accumulator_chunk_reader.md R155). -/
theorem step_chunk_fail (hs : s.started = true) (ht : s.env.turns = []) (hq : s.seq = .frAcc)
    (h : s.env.nextDev = some (.fail, r)) :
    step s = .next (raise (.chunkReadFailure s.cursor) (s.devAnswered
      (.accRd (min s.cfg.chunk s.remaining) (accOffset s.cfg s.cursor)) .fail r)) := by
  obtain ⟨hfull, hlast⟩ := chunkLoopSelectsFullOrLast s ht hs hq
  rcases Nat.lt_or_ge s.cfg.chunk s.remaining with hlt | hle
  · rw [hfull hlt, Nat.min_eq_left hlt.le]
    exact readChunk_fail h
  · rw [hlast hle, Nat.min_eq_right hle]
    exact readChunk_fail h

end

/-! ## `ACC_READ` -/

section

variable {chunk base remaining cursor d : Nat} {as : List DevAnswer}

theorem accReadLoop_full (h : chunk < remaining) :
    accReadLoop chunk base (.ok d :: as) remaining cursor =
      (accReadLoop chunk base as (remaining - chunk) (cursor + chunk)).after (chunk, base + cursor)
        ((answerBytes (chunk + 1) d).drop 1) := by
  rw [accReadLoop, if_pos h]

theorem accReadLoop_last (h : remaining ≤ chunk) :
    accReadLoop chunk base (.ok d :: as) remaining cursor =
      ⟨[(remaining, base + cursor)], (answerBytes (remaining + 1) d).drop 1, .complete⟩ := by
  rw [accReadLoop, if_neg (Nat.not_lt.2 h)]

end

/-- The run of `ACC_READ` on the `OK` answers `ds` that `remaining` bytes from `cursor` on need
(41_accumulator_chunk_reader.md R154). -/
def fullRun (chunk base : Nat) (ds : List Nat) (remaining cursor : Nat) : AccRun where
  reads := (List.range ds.length).map fun k => (min chunk (remaining - k * chunk), base + (cursor + k * chunk))
  bytes := (List.range remaining).map fun j => dataByte (ds.getD (j / chunk) 0) (j % chunk + 1)
  result := .complete

/-- Below one chunk every byte comes from the first answer. -/
theorem map_range_first {chunk n : Nat} (h : n ≤ chunk) (d : Nat) (ds : List Nat) :
    ((List.range n).map fun j => dataByte ((d :: ds).getD (j / chunk) 0) (j % chunk + 1)) =
      (answerBytes (n + 1) d).drop 1 := by
  rw [drop_answerBytes]
  refine List.map_congr_left fun j hj => ?_
  have hlt : j < chunk := Nat.lt_of_lt_of_le (List.mem_range.1 hj) h
  simp [Nat.div_eq_of_lt hlt, Nat.mod_eq_of_lt hlt]

theorem fullRun_last {chunk base d remaining cursor : Nat} (h : remaining ≤ chunk) :
    fullRun chunk base [d] remaining cursor =
      ⟨[(remaining, base + cursor)], (answerBytes (remaining + 1) d).drop 1, .complete⟩ := by
  simp only [fullRun, map_range_first h]
  simp [h]

theorem fullRun_cons {chunk base d remaining cursor : Nat} {ds : List Nat} (hchunk : 1 ≤ chunk)
    (h : chunk < remaining) :
    fullRun chunk base (d :: ds) remaining cursor =
      (fullRun chunk base ds (remaining - chunk) (cursor + chunk)).after (chunk, base + cursor)
        ((answerBytes (chunk + 1) d).drop 1) := by
  have hreads : ∀ k, (min chunk (remaining - (k + 1) * chunk), base + (cursor + (k + 1) * chunk)) =
      (min chunk (remaining - chunk - k * chunk), base + (cursor + chunk + k * chunk)) := by
    intro k
    rw [Nat.succ_mul, Nat.sub_sub, Nat.add_comm chunk, Nat.add_assoc cursor, Nat.add_comm chunk]
  have hbytes : ∀ j, dataByte ((d :: ds).getD ((chunk + j) / chunk) 0) ((chunk + j) % chunk + 1) =
      dataByte (ds.getD (j / chunk) 0) (j % chunk + 1) := by
    intro j
    rw [Nat.add_div_left j hchunk, Nat.add_mod_left, List.getD_cons_succ]
  have hrange : List.range remaining =
      List.range chunk ++ (List.range (remaining - chunk)).map (chunk + ·) := by
    rw [← List.range_add, Nat.add_sub_cancel' h.le]
  simp only [fullRun, AccRun.after, List.length_cons, List.range_succ_eq_map, List.map_cons, List.map_map,
    hrange, List.map_append, map_range_first le_rfl, Function.comp_def, hreads, hbytes]
  simp [h.le]

/-- `ACC_READ` on as many `OK` answers as it needs is that run. -/
theorem accReadLoop_ok {chunk base : Nat} (hchunk : 1 ≤ chunk) (ds : List Nat) :
    ∀ remaining cursor, 1 ≤ remaining → ds.length = (remaining + chunk - 1) / chunk →
      accReadLoop chunk base (ds.map .ok) remaining cursor = fullRun chunk base ds remaining cursor := by
  induction ds with
  | nil =>
    intro remaining cursor hrem hlen
    have := (Nat.div_eq_zero_iff_lt hchunk).1 hlen.symm
    omega
  | cons d ds ih =>
    intro remaining cursor hrem hlen
    have hlen' : ds.length = (remaining - 1) / chunk := by
      rw [show remaining + chunk - 1 = remaining - 1 + chunk by omega, Nat.add_div_right _ hchunk] at hlen
      simpa using hlen
    rw [List.map_cons]
    rcases Nat.lt_or_ge chunk remaining with hlt | hle
    · rw [accReadLoop_full hlt, fullRun_cons hchunk hlt, ih _ _ (by omega)]
      rw [hlen', Nat.sub_add_cancel hlt.le]
    · obtain rfl : ds = [] := List.length_eq_zero_iff.1 (by rw [hlen', Nat.div_eq_of_lt (by omega)])
      rw [accReadLoop_last hle, fullRun_last hle]

/-! ## The chunk loop follows `ACC_READ` -/

/-- What a run of the chunk loop from `s` that follows the run `r` of `ACC_READ` on the answers `as`
leaves: `r`'s reads are in the trace, its bytes in CB from the cursor on. -/
structure Followed (s t : State) (as : List DevAnswer) (r : AccRun) : Prop where
  seq       : t.seq = .frDiag
  captureOk : t.captureOk = (s.captureOk && decide (r.result = .complete))
  cursor    : t.cursor = s.cursor + r.bytes.length
  remaining : t.remaining = s.remaining - r.bytes.length
  stored    : ∀ j < r.bytes.length, t.peek .cb (s.cursor + j) = r.bytes[j]?
  kept      : ∀ j, j < s.cursor ∨ s.cursor + r.bytes.length ≤ j → t.peek .cb j = s.peek .cb j
  answers   : t.env.devAnswers = s.env.devAnswers.drop freeDev r.reads.length
  trace     : t.env.trace = s.env.trace ++
    List.zipWith (fun read a => Transaction.dev (.accRd read.1 read.2) a) r.reads as
  frame     : t = { s with
    seq := t.seq, captureOk := t.captureOk, cursor := t.cursor, remaining := t.remaining
    raw := t.raw, cirBuf := t.cirBuf
    env := { s.env with devAnswers := t.env.devAnswers, trace := t.env.trace } }

section

variable {s t : State} {d : Nat} {rest : Answers DevAnswer} {as : List DevAnswer}

theorem followed_fail (h : s.env.nextDev = some (.fail, rest)) :
    Followed s (raise (.chunkReadFailure s.cursor) (s.devAnswered
        (.accRd (min s.cfg.chunk s.remaining) (accOffset s.cfg s.cursor)) .fail rest))
      (.fail :: as) ⟨[(min s.cfg.chunk s.remaining, s.cfg.accBase + s.cursor)], [], .failed⟩ where
  seq := rfl
  captureOk := by simp
  cursor := rfl
  remaining := rfl
  stored := by simp
  kept := fun _ _ => rfl
  answers := (Answers.drop_of_some 0 h).symm
  trace := rfl
  frame := rfl

theorem followed_last (h : s.env.nextDev = some (.ok d, rest)) :
    Followed s (s.lastChunkRead d rest) (.ok d :: as)
      ⟨[(s.remaining, s.cfg.accBase + s.cursor)], (answerBytes (s.remaining + 1) d).drop 1, .complete⟩ where
  seq := rfl
  captureOk := by simp [State.lastChunkRead, State.chunkStored]
  cursor := by simp [State.lastChunkRead]
  remaining := by simp [State.lastChunkRead]
  stored := fun j hj => chunkStored_peek_cb rest (by simpa using hj)
  kept := fun j hj => chunkStored_peek_cb_outside rest (by simpa using hj)
  answers := (Answers.drop_of_some 0 h).symm
  trace := rfl
  frame := rfl

/-- A full chunk before a followed run. -/
theorem Followed.after_full {r : AccRun} (h : s.env.nextDev = some (.ok d, rest))
    (hf : Followed (s.fullChunkRead d rest) t as r) :
    Followed s t (.ok d :: as) (r.after (s.cfg.chunk, s.cfg.accBase + s.cursor)
      ((answerBytes (s.cfg.chunk + 1) d).drop 1)) where
  seq := hf.seq
  captureOk := hf.captureOk
  cursor := by simp [hf.cursor, State.fullChunkRead, AccRun.after, Nat.add_assoc]
  remaining := by simp [hf.remaining, State.fullChunkRead, AccRun.after, Nat.sub_sub]
  stored := by
    intro j hj
    simp only [AccRun.after, List.length_append, List.length_drop, answerBytes_length,
      Nat.add_sub_cancel] at hj ⊢
    rcases Nat.lt_or_ge j s.cfg.chunk with hlt | hge
    · rw [hf.kept _ (.inl (Nat.add_lt_add_left hlt _)), List.getElem?_append_left (by simpa using hlt)]
      exact chunkStored_peek_cb rest hlt
    · obtain ⟨i, rfl⟩ := Nat.exists_eq_add_of_le hge
      rw [← Nat.add_assoc, List.getElem?_append_right (by simp)]
      simpa [State.fullChunkRead] using hf.stored i (by omega)
  kept := by
    intro j hj
    simp only [AccRun.after, List.length_append, List.length_drop, answerBytes_length,
      Nat.add_sub_cancel] at hj
    have hnext : j < (s.fullChunkRead d rest).cursor ∨
        (s.fullChunkRead d rest).cursor + r.bytes.length ≤ j := by
      simp only [State.fullChunkRead]
      omega
    exact (hf.kept j hnext).trans (chunkStored_peek_cb_outside rest (by omega))
  answers := hf.answers.trans (Answers.drop_of_some _ h).symm
  trace := by
    rw [hf.trace]
    simp [State.fullChunkRead, State.chunkStored, AccRun.after, accOffset]
  frame := hf.frame

end

/-- From `FR_ACC` the machine follows `ACC_READ`, one step per read. -/
theorem run_follows_accReadLoop (m : Nat) :
    ∀ s : State, s.started = true → s.env.turns = [] → s.seq = .frAcc → 1 ≤ s.cfg.chunk →
      1 ≤ s.remaining → s.remaining ≤ m → s.cursor + s.remaining ≤ s.cfg.cirLen →
      ∀ r, r = accReadLoop s.cfg.chunk s.cfg.accBase (s.env.devAnswers.take freeDev m) s.remaining s.cursor →
        r.result ≠ .unanswered →
        ∃ t, core.run r.reads.length s = .next t ∧ Followed s t (s.env.devAnswers.take freeDev m) r := by
  induction m with
  | zero => intro s _ _ _ _ hrem hm; omega
  | succ m ih =>
    intro s hs hturns hq hchunk hrem hm hfits r hr hanswered
    obtain ⟨hfull, hlast⟩ := chunkLoopSelectsFullOrLast s hturns hs hq
    rcases hpop : s.env.devAnswers.pop freeDev with _ | ⟨_ | d, rest⟩
    · rw [Answers.take_of_none _ hpop] at hr
      exact absurd (congrArg AccRun.result hr) hanswered
    · rw [Answers.take_of_some m hpop] at hr ⊢
      subst hr
      exact ⟨_, core_run_succ (step_chunk_fail hs hturns hq hpop), followed_fail hpop⟩
    · rw [Answers.take_of_some m hpop] at hr ⊢
      rcases Nat.lt_or_ge s.cfg.chunk s.remaining with hlt | hle
      · have hstep := (hfull hlt).trans (exec_accF_ok (d := d) hpop (by omega))
        rw [accReadLoop_full hlt] at hr
        subst hr
        have hsum : (s.fullChunkRead d rest).cursor + (s.fullChunkRead d rest).remaining =
            s.cursor + s.remaining := by simp only [State.fullChunkRead]; omega
        obtain ⟨t, hrun, hfollowed⟩ := ih (s.fullChunkRead d rest) hs hturns rfl hchunk
          (Nat.sub_pos_of_lt hlt) (by simp only [State.fullChunkRead]; omega) (hsum ▸ hfits) _ rfl hanswered
        exact ⟨t, (core_run_succ hstep).trans hrun, hfollowed.after_full hpop⟩
      · have hstep := (hlast hle).trans (exec_accL_ok (d := d) hpop hle hfits)
        rw [accReadLoop_last hle] at hr
        subst hr
        exact ⟨_, core_run_succ hstep, followed_last hpop⟩

/-! ## The obligations -/

/-- Settles O59: `ACCINIT` sets the chunk loop to the start of `ACC_READ`, and the loop follows it. -/
theorem machineRunsAccRead : Obligations.MachineRunsAccRead := by
  intro s r hs hturns hq hn hchunk hr hanswered
  have hinit : step s = .next { s with remaining := s.cfg.cirLen, cursor := 0, seq := .frAcc } :=
    (step_selected hs hturns (by simp [hq, condBit, selected])).trans (exec_accInit s)
  obtain ⟨t, hrun, h⟩ := run_follows_accReadLoop s.cfg.cirLen
    { s with remaining := s.cfg.cirLen, cursor := 0, seq := .frAcc } hs hturns rfl hchunk
    (by simp only [Config.cirLen]; omega) le_rfl (by simp) r hr hanswered
  refine ⟨t, ?_, h.seq, h.captureOk, by simpa using h.cursor, h.remaining, by simpa using h.stored,
    fun j hj => h.kept j (.inr (by simpa using hj)), h.answers, h.trace, h.frame⟩
  rw [Nat.add_comm, core_run_succ hinit, hrun]

/-- Settles O20: the raw answer and its meaningful bytes are those of `chunkStored`. -/
theorem accFReadsFullChunk : Obligations.AccFReadsFullChunk := by
  refine fun s rest => ⟨fun d hok hmore hin => ?_, fun hfail => readChunk_fail hfail⟩
  refine ⟨_, exec_accF_ok hok (by omega), fun j hj => chunkStored_peek_raw rest hj, fun j hj => ?_,
    fun j hj => chunkStored_peek_cb_outside rest hj, rfl⟩
  exact (chunkStored_peek_cb rest hj).trans (getElem?_drop_answerBytes hj)

/-- Settles O21: the raw answer and its meaningful bytes are those of `chunkStored`. -/
theorem accLReadsLastChunk : Obligations.AccLReadsLastChunk := by
  refine fun s rest => ⟨fun d hok hlast hin => ?_, fun hfail => readChunk_fail hfail⟩
  refine ⟨_, exec_accL_ok hok hlast hin, fun j hj => chunkStored_peek_raw rest hj,
    fun j hj => chunkStored_peek_raw_above rest hj, fun j hj => ?_,
    fun j hj => chunkStored_peek_cb_outside rest hj, rfl⟩
  exact (chunkStored_peek_cb rest hj).trans (getElem?_drop_answerBytes hj)

/-- Settles O58: the run is `fullRun`, whose reads and bytes are written out. -/
theorem accReadCopiesExactlyTheBytes : Obligations.AccReadCopiesExactlyTheBytes := by
  intro len chunk base ds hlen hchunk hds
  rw [accRead, accReadLoop_ok hchunk ds len 0 hlen hds]
  refine ⟨rfl, by simp [fullRun], by simp [fullRun], fun j hj => ?_⟩
  have hread : j / chunk < ds.length := by
    rw [hds, show len + chunk - 1 = len - 1 + chunk by omega, Nat.add_div_right _ hchunk]
    exact Nat.lt_succ_of_le (Nat.div_le_div_right (by omega))
  exact ⟨ds[j / chunk], List.getElem?_eq_getElem hread, by simp [fullRun, hj, hread]⟩

end Sys2Proof.Machine
end

section
/-! The commands as instructions of their own, the record write of the serializer (42_record_serializer.md)
and the operations of the host (45_session_interface.md). -/

namespace Sys2Proof.Machine

open Sys2Proof

/-! ## The files of the store -/

/-- The file a store command is about. -/
def storePath : SinkCmd → Path
  | .fileOpen p => p
  | .fileWrite p _ => p

theorem readCell_storeEffect_ne (c : SinkCmd) (a : SinkAnswer) (fs : FileStore) {q : Path}
    (h : q ≠ storePath c) : readCell (storeEffect c a fs) q = readCell fs q := by
  cases a with
  | fail => rfl
  | ok => cases c <;> exact readCell_writeCells_outside fs _ q [_] (Nat.lt_or_gt_of_ne h)

/-- A write answered `OK` leaves the file holding the bytes (42_record_serializer.md R174). -/
theorem readCell_fileWrite_same (fs : FileStore) (p : Path) (b : List Byte) :
    readCell (storeEffect (.fileWrite p b) .ok fs) p = some b :=
  readCell_writeCells_inside fs p 0 [b] Nat.zero_lt_one

/-! ## Commands by themselves -/

theorem devCommand_answered {c : DevCmd} {s : State} {a : DevAnswer} {rest : Answers DevAnswer}
    (h : s.env.nextDev = some (a, rest)) : devCommand c s = .next (s.devAnswered c a rest) := by
  cases a with
  | fail => exact withDev_fail h
  | ok d => exact withDev_ok h

theorem sinkCommand_answered {c : SinkCmd} {s : State} {a : SinkAnswer} {rest : Answers SinkAnswer}
    (h : s.env.nextSink = some (a, rest)) : sinkCommand c s = .next (s.sinkAnswered c a rest) := by
  cases a with
  | fail => exact withSink_fail h
  | ok => exact withSink_ok h

theorem exec_of_dri {i : Instr} (hi : i.format = .dri) (s : State) : ∃ c, exec i s = devCommand c s := by
  cases i with
  | statusRd => exact ⟨.statusRd, rfl⟩
  | statusClr m => exact ⟨.statusClr m, rfl⟩
  | rxEnable m => exact ⟨.rxEnable m, rfl⟩
  | rxReset => exact ⟨.rxReset, rfl⟩
  | flenRd => exact ⟨.flenRd, rfl⟩
  | frameRd n => exact ⟨.frameRd n, rfl⟩
  | tsRd v => exact ⟨.tsRd v, rfl⟩
  | accRd n o => exact ⟨.accRd n o, rfl⟩
  | diagRd => exact ⟨.diagRd, rfl⟩
  | _ => cases hi

theorem exec_of_snk {i : Instr} (hi : i.format = .snk) (s : State) : ∃ c, exec i s = sinkCommand c s := by
  cases i with
  | fileOpen p => exact ⟨.fileOpen p, rfl⟩
  | fileWrite p b => exact ⟨.fileWrite p b, rfl⟩
  | _ => cases hi

/-! ## `SERWR` -/

section

variable {s : State} {cir : List Byte} {r : Answers SinkAnswer}

theorem exec_serWr_unanswered (hcir : readCells (s.space .cb) 0 s.cfg.cirLen = some cir)
    (h : s.env.nextSink = none) : exec .serWr s = .next s := by
  rw [exec, execSerWr, memRead_ok (by simp) hcir]
  simp [withSink, h]

theorem exec_serWr_ok (hcir : readCells (s.space .cb) 0 s.cfg.cirLen = some cir)
    (h : s.env.nextSink = some (.ok, r)) :
    exec .serWr s = .next { s.sinkAnswered
        (.fileWrite s.curPath (record s.cfg.native s.frameIndex s.rxTs cir)) .ok r with
      seq := .frCount } := by
  rw [exec, execSerWr, memRead_ok (by simp) hcir, withSink_ok h]

theorem exec_serWr_fail (hcir : readCells (s.space .cb) 0 s.cfg.cirLen = some cir)
    (h : s.env.nextSink = some (.fail, r)) :
    exec .serWr s = .next (raise (.fileWriteFailure s.curPath) (s.sinkAnswered
        (.fileWrite s.curPath (record s.cfg.native s.frameIndex s.rxTs cir)) .fail r)) := by
  rw [exec, execSerWr, memRead_ok (by simp) hcir, withSink_fail h]
  rfl

end

/-! ## `START` and `KILL` -/

theorem exec_start {s : State} {cfg : Config} (hs : s.started = false) (hcfg : cfg.valid = true) :
    exec (.start cfg) s = .next (State.afterStart cfg s.env) := by
  simp [exec, execStart, hs, configurationAdmitted, hcfg]

/-- `START` gives a next state only as the first one, on an admitted configuration. -/
theorem exec_start_next {s t : State} {cfg : Config} (h : exec (.start cfg) s = .next t) :
    s.started = false ∧ cfg.valid = true ∧ t = State.afterStart cfg s.env := by
  cases hs : s.started <;> cases hcfg : cfg.valid <;>
    simp [exec, execStart, hs, configurationAdmitted, hcfg] at h
  exact ⟨rfl, rfl, h.symm⟩

/-- The patterns of a width are finitely many. -/
theorem exists_list_of_all_patterns (w : Nat) : ∃ l : List (BitVec w), ∀ i, i ∈ l :=
  ⟨(List.finRange (2 ^ w)).map BitVec.ofFin,
    fun i => List.mem_map.2 ⟨i.toFin, List.mem_finRange _, rfl⟩⟩

/-- The `path_of` that lists the paths of `f` at the frame indices `l` (00_scope.md R2, U16). -/
def pathFunctionOf (l : List (BitVec 32)) (expId : String) (f : BitVec 32 → Path) : PathFunction where
  listed := l.map fun j => ⟨expId, j, f j⟩
  rest := 0

theorem pathAt_pathFunctionOf {l : List (BitVec 32)} (expId : String) (f : BitVec 32 → Path)
    {i : BitVec 32} (h : i ∈ l) : pathAt (pathFunctionOf l expId f) expId i = f i :=
  pathAt_listed (lookupPath_map f expId i l h)

theorem exec_kill_of_running {s : State} (h : terminal s.seq = false) :
    exec .kill s = .next { s with seq := .killed } := by
  cases hq : s.seq with
  | done | halt | killed => simp [hq, terminal] at h
  | _ => simp [exec, execKill, hq]

theorem exec_kill_of_terminal {s : State} (h : terminal s.seq = true) : exec .kill s = .next s := by
  cases hq : s.seq with
  | done | halt | killed => simp [exec, execKill, hq]
  | _ => simp [hq, terminal] at h

/-! ## The obligations -/

/-- Settles O24: the CIR is read as one range, and the one cell of the open path is written. -/
theorem serWrWritesRecordOrLogs : Obligations.SerWrWritesRecordOrLogs := by
  intro s rest cir b hlen hcells hb
  subst hb
  have hcir : readCells (s.space .cb) 0 s.cfg.cirLen = some cir :=
    readCells_eq_some.2 ⟨hlen, fun j hj => by rw [Nat.zero_add]; exact hcells j hj⟩
  refine ⟨fun hok => ⟨_, exec_serWr_ok hcir hok, ?_, fun q hq => ?_, rfl⟩,
    fun hfail => exec_serWr_fail hcir hfail⟩
  · exact readCell_fileWrite_same s.files s.curPath _
  · exact readCell_storeEffect_ne (.fileWrite s.curPath _) .ok s.files hq

/-- Settles O30: an answered command changes the store as `storeEffect` says. -/
theorem fileOpenTruncates : Obligations.FileOpenTruncates := fun s _ p =>
  ⟨fun hok => ⟨_, sinkCommand_answered hok, readCell_fileOpen_same s.files p,
    fun _ hq => readCell_storeEffect_ne (.fileOpen p) .ok s.files hq, rfl⟩,
    fun hfail => sinkCommand_answered hfail⟩

/-- Settles O31: an answered command changes the store as `storeEffect` says. -/
theorem fileWriteStoresBytes : Obligations.FileWriteStoresBytes := fun s _ p b =>
  ⟨fun hok => ⟨_, sinkCommand_answered hok, readCell_fileWrite_same s.files p b,
    fun _ hq => readCell_storeEffect_ne (.fileWrite p b) .ok s.files hq, rfl⟩,
    fun hfail => sinkCommand_answered hfail⟩

/-- Settles O29: each is `devCommand` with its own command, answered. -/
theorem deviceCommandsComplete : Obligations.DeviceCommandsComplete := by
  intro s a rest h
  have done : ∀ c, devCommand c s = .next { s with env := afterDev s c a rest } :=
    fun _ => devCommand_answered h
  exact ⟨done .statusRd, fun m => done (.statusClr m), fun m => done (.rxEnable m), done .rxReset,
    done .flenRd, fun n => done (.frameRd n), fun v => done (.tsRd v), fun n o => done (.accRd n o),
    done .diagRd⟩

/-- Settles O32: the state is `afterStart`; the record that lists a function's points has its paths. -/
theorem startBeginsSession : Obligations.StartBeginsSession := by
  refine fun s cfg => ⟨fun hs hcfg => ⟨_, exec_start hs hcfg, rfl, rfl, rfl, rfl, rfl, rfl, rfl, rfl, ?_, rfl⟩,
    fun hs => ?_, fun hs hcfg => ?_, fun hs hcfg f => ?_⟩
  · intro sp a
    cases sp <;> rfl
  · simp [exec, execStart, hs]
  · simp [exec, execStart, hs, configurationAdmitted, hcfg]
  · obtain ⟨l, hl⟩ := exists_list_of_all_patterns 32
    exact ⟨pathFunctionOf l cfg.expId f, _, exec_start hs hcfg, rfl,
      fun i => pathAt_pathFunctionOf cfg.expId f (hl i)⟩

/-- Settles O33: by whether the state is terminal. -/
theorem killInterrupts : Obligations.KillInterrupts :=
  fun _ => ⟨exec_kill_of_running, exec_kill_of_terminal⟩

end Sys2Proof.Machine
end

section
/-! What the operations leave unchanged, and what they do when a transaction fails or gets no answer
(60_exceptions.md R236, 44_device_register_interface.md R211). -/

namespace Sys2Proof.Machine

open Sys2Proof

/-! ## No byte of a buffer -/

theorem peek_of_frame {s t u : State} (h : t = u) (hf : u.frameBuf = s.frameBuf)
    (hc : u.cirBuf = s.cirBuf) (hr : u.raw = s.raw) (sp : Space) (a : Nat) :
    t.peek sp a = s.peek sp a := by
  subst h
  cases sp <;> simp [State.peek, hf, hc, hr]

/-! ## What stands before a next state -/

theorem exec_arm_unanswered {s : State} (h : s.env.nextDev = none) : exec .arm s = .next s := by
  rw [exec, execArm, withDev_unanswered h]

theorem readChunk_unanswered {n : Nat} {s : State} {k : State → Out} (h : s.env.nextDev = none) :
    readChunk n s k = .next s :=
  withDev_unanswered h

/-- `ARM`, when it gives a next state. -/
theorem exec_arm_next {s t : State} (h : exec .arm s = .next t) :
    t = s ∨
    (∃ r, t = raise (.deviceIoFatal .rxEnable)
      { (s.devAnswered (.rxEnable .immediate) .fail r).zeroFill with captureOk := false }) ∨
    (∃ d r, t = { (s.devAnswered (.rxEnable .immediate) (.ok d) r).zeroFill with
      captureOk := false
      seq := .armed }) := by
  rcases ha : s.env.nextDev with _ | ⟨_ | d, r⟩
  · cases h.symm.trans (exec_arm_unanswered ha)
    exact .inl rfl
  · cases h.symm.trans (exec_arm_fail ha)
    exact .inr (.inl ⟨r, rfl⟩)
  · cases h.symm.trans (exec_arm_ok ha)
    exact .inr (.inr ⟨d, r, rfl⟩)

/-- An operation that begins with a device command whose failure is the hard stop, when it gives a next
state. -/
theorem exec_hardStop_next {i : Instr} {s t : State} {c : DevCmd} (hi : hardStopCommand s i = some c)
    (h : exec i s = .next t) :
    t = s ∨ (∃ r, t = raise (.deviceIoFatal (devName c)) (s.devAnswered c .fail r)) ∨
    (∃ d r, s.env.nextDev = some (.ok d, r)) := by
  rcases exec_hardStop_cases hi with hb | ⟨r, hb⟩ | hok
  · cases h.symm.trans hb
    exact .inl rfl
  · cases h.symm.trans hb
    exact .inr (.inl ⟨r, rfl⟩)
  · exact .inr (.inr hok)

/-- `RDFRAME`, when it gives a next state. -/
theorem exec_rdFrame_next {s t : State} (h : exec .rdFrame s = .next t) :
    t = s ∨
    (∃ r, t = raise (.deviceIoFatal .frameRd) (s.devAnswered (.frameRd s.frameLen) .fail r)) ∨
    (∃ d r, s.frameLen ≤ s.cfg.frameCap ∧ t = { s.devAnswered (.frameRd s.frameLen) (.ok d) r with
      frameBuf := writeCells s.frameBuf 0 (answerBytes s.frameLen d)
      seq := .frIdx }) := by
  rcases exec_hardStop_next (c := .frameRd s.frameLen) rfl h with rfl | ⟨r, rfl⟩ | ⟨d, r, hok⟩
  · exact .inl rfl
  · exact .inr (.inl ⟨r, rfl⟩)
  · have hk := h
    rw [exec, execRdFrame, withDevOrHalt_ok hok] at hk
    have hfits : s.frameLen ≤ s.cfg.frameCap := by simpa using (memWrite_next hk).1
    cases h.symm.trans (exec_rdFrame_ok hok hfits)
    exact .inr (.inr ⟨d, r, hfits, rfl⟩)

/-- `XIDX`, when it gives a next state. -/
theorem exec_xIdx_next {s t : State} (h : exec .xIdx s = .next t) :
    ∃ b, t = { s with frameIndex := frameIndexOf s.cfg b, seq := .frTs } := by
  obtain ⟨b, _, _, h⟩ := memRead_next h
  cases h
  exact ⟨b, rfl⟩

/-- `SEROPEN`, when it gives a next state. -/
theorem exec_serOpen_next {s t : State} (h : exec .serOpen s = .next t) :
    t = s ∨
    (∃ r, t = raise (.fileOpenFailure (pathOfFrame s.cfg s.frameIndex))
      (s.sinkAnswered (.fileOpen (pathOfFrame s.cfg s.frameIndex)) .fail r)) ∨
    (∃ r, t = { s.sinkAnswered (.fileOpen (pathOfFrame s.cfg s.frameIndex)) .ok r with
      curPath := pathOfFrame s.cfg s.frameIndex
      seq := .frWrite }) := by
  rw [exec, execSerOpen] at h
  rcases withSink_next h with ⟨_, rfl⟩ | ⟨r, _, h⟩ | ⟨r, _, h⟩
  · exact .inl rfl
  · cases h
    exact .inr (.inl ⟨r, rfl⟩)
  · cases h
    exact .inr (.inr ⟨r, rfl⟩)

/-- `SERWR`, when it gives a next state. -/
theorem exec_serWr_next {s t : State} (h : exec .serWr s = .next t) :
    t = s ∨ ∃ b,
      (∃ r, t = raise (.fileWriteFailure s.curPath) (s.sinkAnswered (.fileWrite s.curPath b) .fail r)) ∨
      (∃ r, t = { s.sinkAnswered (.fileWrite s.curPath b) .ok r with seq := .frCount }) := by
  rw [exec, execSerWr] at h
  obtain ⟨cir, _, _, h⟩ := memRead_next h
  rcases withSink_next h with ⟨_, rfl⟩ | ⟨r, _, h⟩ | ⟨r, _, h⟩
  · exact .inl rfl
  · cases h
    exact .inr ⟨_, .inl ⟨r, rfl⟩⟩
  · cases h
    exact .inr ⟨_, .inr ⟨r, rfl⟩⟩

theorem exec_kill_next {s t : State} (h : exec .kill s = .next t) : t = { s with seq := t.seq } := by
  cases ht : terminal s.seq
  · cases h.symm.trans (exec_kill_of_running ht)
    rfl
  · cases h.symm.trans (exec_kill_of_terminal ht)
    rfl

/-- A chunk read, and a continuation that moves only the cursor, the rest and `seq`: what it stores to and
what it changes (41_accumulator_chunk_reader.md R152, R153). -/
theorem readChunk_frame {n : Nat} {s t : State} {k : State → Out}
    (hk : ∀ u v, k u = .next v →
      v = { u with cursor := v.cursor, remaining := v.remaining, seq := v.seq })
    (h : readChunk n s k = .next t) :
    (∀ a, n + 1 ≤ a → t.peek .raw a = s.peek .raw a) ∧
    (∀ a, a < s.cursor ∨ s.cursor + n ≤ a → t.peek .cb a = s.peek .cb a) ∧
    t = { s with
      seq := t.seq, captureOk := t.captureOk, cursor := t.cursor, remaining := t.remaining
      raw := t.raw, cirBuf := t.cirBuf
      env := { s.env with devAnswers := t.env.devAnswers, trace := t.env.trace } } := by
  rcases readChunk_next h with ⟨_, rfl⟩ | ⟨r, _, rfl⟩ | ⟨d, r, _, _, _, h⟩
  · exact ⟨fun _ _ => rfl, fun _ _ => rfl, rfl⟩
  · exact ⟨fun _ _ => rfl, fun _ _ => rfl, rfl⟩
  · have ht := hk _ _ h
    have hpeek := peek_of_frame (s := s.chunkStored n d r) ht rfl rfl rfl
    refine ⟨fun a ha => ?_, fun a ha => ?_, ht.trans ?_⟩
    · exact (hpeek .raw a).trans (chunkStored_peek_raw_above r ha)
    · exact (hpeek .cb a).trans (chunkStored_peek_cb_outside r ha)
    · rw [ht]
      rfl

/-! ## The obligations -/

/-- Settles O34: all but `ARM` are operations of `hardStopCommand`; `ARM` has its own equation. -/
theorem failedDeviceCommandHalts : Obligations.FailedDeviceCommandHalts := by
  intro i c s rest hmem hfail
  have hissues : (i = .arm ∧ c = .rxEnable) ∨
      ∃ cmd, hardStopCommand s i = some cmd ∧ devName cmd = c := by
    simp only [List.mem_cons, Prod.mk.injEq, List.not_mem_nil, or_false] at hmem
    refine hmem.imp_right fun h => ?_
    rcases h with h | h | h | h | h | h | h | h | h <;> obtain ⟨rfl, rfl⟩ := h <;> exact ⟨_, rfl, rfl⟩
  rcases hissues with ⟨rfl, rfl⟩ | ⟨cmd, hcmd, rfl⟩
  · exact ⟨_, exec_arm_fail hfail, rfl, rfl, rfl, rfl, rfl, rfl⟩
  · exact ⟨_, exec_fail hcmd hfail, rfl, rfl, rfl, rfl, rfl, rfl⟩

/-- Settles O35: every operation begins with its transaction, but `SERWR`, which reads CB first. -/
theorem unansweredTransactionWaits : Obligations.UnansweredTransactionWaits := by
  refine ⟨fun i s hmem hnone => ?_, fun s hnone => ?_, fun s hnone hfull => ?_⟩
  · simp only [List.mem_cons, List.not_mem_nil, or_false] at hmem
    have hissues : i = .arm ∨ i = .accF ∨ i = .accL ∨ ∃ c, hardStopCommand s i = some c := by
      rcases hmem with rfl | rfl | rfl | rfl | rfl | rfl | rfl | rfl | rfl | rfl | rfl | rfl <;>
        simp [hardStopCommand]
    rcases hissues with rfl | rfl | rfl | ⟨c, hc⟩
    · exact exec_arm_unanswered hnone
    · exact readChunk_unanswered hnone
    · exact readChunk_unanswered hnone
    · exact exec_unanswered hc hnone
  · simp [exec, execSerOpen, withSink, hnone]
  · obtain ⟨cir, hcir⟩ := readCells_isSome (m := s.space .cb) (a := 0) (n := s.cfg.cirLen)
      fun j hj => by rw [Nat.zero_add]; exact hfull j hj
    exact exec_serWr_unanswered hcir hnone

/-- Settles O36: the state each leaves is written out, and none has another buffer. -/
theorem frameOfOperationsWithoutTransaction : Obligations.FrameOfOperationsWithoutTransaction := by
  have stop : ∀ s t, exec .stop s = .next t → t = { s with seq := t.seq, events := t.events } :=
    fun s t h => by cases h; rfl
  have xIdx : ∀ s t, exec .xIdx s = .next t → t = { s with seq := t.seq, frameIndex := t.frameIndex } :=
    fun s t h => by obtain ⟨b, rfl⟩ := exec_xIdx_next h; rfl
  have count : ∀ s t, exec .count s = .next t → t = { s with seq := t.seq, frameCount := t.frameCount } :=
    fun s t h => by cases h; rfl
  have accInit : ∀ s t, exec .accInit s = .next t →
      t = { s with seq := t.seq, remaining := t.remaining, cursor := t.cursor } :=
    fun s t h => by cases h; rfl
  refine ⟨stop, xIdx, count, accInit, fun _ _ => exec_kill_next, fun i s t hmem h => ?_⟩
  simp only [List.mem_cons, List.not_mem_nil, or_false] at hmem
  rcases hmem with rfl | rfl | rfl | rfl | rfl
  · exact peek_of_frame (stop s t h) rfl rfl rfl
  · exact peek_of_frame (xIdx s t h) rfl rfl rfl
  · exact peek_of_frame (count s t h) rfl rfl rfl
  · exact peek_of_frame (accInit s t h) rfl rfl rfl
  · exact peek_of_frame (exec_kill_next h) rfl rfl rfl

/-- Settles O37: without an answer nothing changes, the hard stop changes no named register, and the
answered operations have their equations. -/
theorem frameOfDeviceReads : Obligations.FrameOfDeviceReads := by
  intro i s t hmem h
  refine (and_iff_left_of_imp fun hframe => peek_of_frame hframe rfl rfl rfl).2 ?_
  simp only [List.mem_cons, List.not_mem_nil, or_false] at hmem
  have hissues : ∃ c, hardStopCommand s i = some c := by
    rcases hmem with rfl | rfl | rfl | rfl | rfl | rfl | rfl | rfl <;> exact ⟨_, rfl⟩
  obtain ⟨c, hc⟩ := hissues
  rcases exec_hardStop_next hc h with rfl | ⟨r, rfl⟩ | ⟨d, r, hok⟩
  · simp
  · simp [raise, State.devAnswered]
  · rcases hmem with rfl | rfl | rfl | rfl | rfl | rfl | rfl | rfl
    · cases h.symm.trans (exec_poll_ok hok); rfl
    · cases h.symm.trans (exec_clrGood_ok hok); rfl
    · cases h.symm.trans (exec_rdLen_ok hok); rfl
    · cases h.symm.trans (exec_rdTs_ok hok); rfl
    · cases h.symm.trans (exec_frDiag_ok hok); rfl
    · cases h.symm.trans (exec_clrErr_ok hok); rfl
    · cases h.symm.trans (exec_rxRst_ok hok); rfl
    · cases h.symm.trans (exec_reDiag_ok hok); rfl

/-- Settles O38: each write leaves the bytes outside its range, and the states are written out. -/
theorem frameOfBufferStores : Obligations.FrameOfBufferStores := by
  refine ⟨fun s t h => ?_, fun s t h => ?_, ?_⟩
  · have hfill : ∀ (m : Memory) (n a : Nat), n ≤ a → readCell (writeCells m 0 (zeros n)) a = readCell m a :=
      fun m n a ha => readCell_writeCells_outside m 0 a _ (.inr (by simpa using ha))
    rcases exec_arm_next h with rfl | ⟨r, rfl⟩ | ⟨d, r, rfl⟩
    · exact ⟨fun _ _ => rfl, fun _ _ => rfl, rfl⟩
    · exact ⟨hfill s.frameBuf s.cfg.frameCap, hfill s.cirBuf s.cfg.cirLen, rfl⟩
    · exact ⟨hfill s.frameBuf s.cfg.frameCap, hfill s.cirBuf s.cfg.cirLen, rfl⟩
  · rcases exec_rdFrame_next h with rfl | ⟨r, rfl⟩ | ⟨d, r, _, rfl⟩
    · exact ⟨fun _ _ => rfl, rfl⟩
    · exact ⟨fun _ _ => rfl, rfl⟩
    · exact ⟨fun a ha => readCell_writeCells_outside s.frameBuf 0 a _ (.inr (by simpa using ha)), rfl⟩
  · rintro s t n (⟨h, rfl⟩ | ⟨h, rfl⟩)
    · exact readChunk_frame (fun u v hk => by cases hk; rfl) h
    · exact readChunk_frame (fun u v hk => by cases hk; rfl) h

/-- Settles O39: both are one store command on the path named. -/
theorem frameOfSerializer : Obligations.FrameOfSerializer := by
  refine ⟨fun s t h => ?_, fun s t h => ?_⟩
  · rcases exec_serOpen_next h with rfl | ⟨r, rfl⟩ | ⟨r, rfl⟩
    · exact ⟨fun _ _ => rfl, fun _ _ => rfl, rfl⟩
    · exact ⟨fun _ _ => rfl, peek_of_frame rfl rfl rfl rfl, rfl⟩
    · exact ⟨fun q hq => readCell_storeEffect_ne (.fileOpen _) .ok s.files hq,
        peek_of_frame rfl rfl rfl rfl, rfl⟩
  · rcases exec_serWr_next h with rfl | ⟨b, ⟨r, rfl⟩ | ⟨r, rfl⟩⟩
    · exact ⟨fun _ _ => rfl, fun _ _ => rfl, rfl⟩
    · exact ⟨fun _ _ => rfl, peek_of_frame rfl rfl rfl rfl, rfl⟩
    · exact ⟨fun q hq => readCell_storeEffect_ne (.fileWrite s.curPath b) .ok s.files hq,
        peek_of_frame rfl rfl rfl rfl, rfl⟩

/-- Settles O40: a command by itself changes what `devAnswered` or `sinkAnswered` does. -/
theorem frameOfCommands : Obligations.FrameOfCommands := by
  refine ⟨fun i s t hi h => ?_, fun i s t p hi h => ?_⟩
  · obtain ⟨c, hc⟩ := exec_of_dri hi s
    obtain ⟨u, hu, rfl | ⟨a, r, _, rfl⟩⟩ := devCommand_next c s <;> cases (h.symm.trans hc).trans hu
    · exact ⟨rfl, fun _ _ => rfl⟩
    · exact ⟨rfl, peek_of_frame rfl rfl rfl rfl⟩
  · have hcmd : ∃ c, exec i s = sinkCommand c s ∧ storePath c = p := by
      rcases hi with rfl | ⟨b, rfl⟩
      · exact ⟨.fileOpen p, rfl, rfl⟩
      · exact ⟨.fileWrite p b, rfl, rfl⟩
    obtain ⟨c, hc, rfl⟩ := hcmd
    obtain ⟨u, hu, rfl | ⟨a, r, _, rfl⟩⟩ := sinkCommand_next c s <;> cases (h.symm.trans hc).trans hu
    · exact ⟨fun _ _ => rfl, fun _ _ => rfl, rfl⟩
    · exact ⟨fun q hq => readCell_storeEffect_ne c a s.files hq, peek_of_frame rfl rfl rfl rfl, rfl⟩

end Sys2Proof.Machine
end

section
/-! The invariant of RXCAP (10_state.md section 8): `START` establishes it, every step keeps it, and under
it no step makes a bad memory access. -/

namespace Sys2Proof

open Sys2Proof.Machine

/-! ## What keeps the invariant -/

theorem Invariant.haltCause_eq_none {s : State} (h : Invariant s) (hq : s.seq ≠ .halt) :
    s.haltCause = none :=
  not_not.1 fun hc => hq (h.halted.2 hc)

theorem Invariant.filled {s : State} (h : Invariant s) (hq : inCycle s.seq = true) :
    Memory.full s.cfg.frameCap s.frameBuf = true ∧ Memory.full s.cfg.cirLen s.cirBuf = true :=
  ⟨h.frameFull hq, h.cirFull hq⟩

theorem Invariant.withTurns {s : State} (h : Invariant s) (ts : List Turn) : Invariant (s.withTurns ts) :=
  { h with }

theorem Invariant.devAnswered {s : State} (h : Invariant s) (c : DevCmd) (a : DevAnswer)
    (r : Answers DevAnswer) : Invariant (s.devAnswered c a r) :=
  { h with }

theorem Invariant.sinkAnswered {s : State} (h : Invariant s) (c : SinkCmd) (a : SinkAnswer)
    (r : Answers SinkAnswer) : Invariant (s.sinkAnswered c a r) :=
  { h with filesWf := cellsWf_storeEffect c a s.files h.filesWf }

theorem Invariant.zeroFill {s : State} (h : Invariant s) : Invariant s.zeroFill :=
  { h with
    frameWf := Memory.wf_writeCells _ _ _ _ h.frameWf (by simp)
    cirWf := Memory.wf_writeCells _ _ _ _ h.cirWf (by simp)
    frameFull := fun _ => Memory.full_writeCells_zeros _ _
    cirFull := fun _ => Memory.full_writeCells_zeros _ _ }

theorem Invariant.chunkStored {s : State} (h : Invariant s) {n : Nat} (d : Nat) (r : Answers DevAnswer)
    (hraw : n ≤ s.cfg.chunk) (hcb : s.cursor + n ≤ s.cfg.cirLen) : Invariant (s.chunkStored n d r) :=
  { h with
    rawWf := Memory.wf_writeCells _ _ _ _ h.rawWf (by simpa [State.chunkStored] using hraw)
    cirWf := Memory.wf_writeCells _ _ _ _ h.cirWf (by simpa [State.chunkStored] using hcb)
    cirFull := fun hq => Memory.full_writeCells _ _ _ _ (h.cirFull hq) }

theorem Invariant.setFrameBuf {s : State} (h : Invariant s) {bytes : List Byte}
    (hfits : bytes.length ≤ s.cfg.frameCap) :
    Invariant { s with frameBuf := writeCells s.frameBuf 0 bytes } :=
  { h with
    frameWf := Memory.wf_writeCells _ _ _ _ h.frameWf (by simpa using hfits)
    frameFull := fun hq => Memory.full_writeCells _ _ _ _ (h.frameFull hq) }

theorem Invariant.setLatch {s : State} (h : Invariant s) (d : Nat) :
    Invariant { s with statusLatch := answerStatus s.cfg d } :=
  { h with latch := Nat.mod_lt _ (Nat.two_pow_pos _) }

theorem Invariant.setDiag {s : State} (h : Invariant s) (d : Nat) :
    Invariant { s with diag := answerBytes s.cfg.diagW d } :=
  { h with snapshot := answerBytes_length _ _ }

theorem Invariant.setRxTs {s : State} (h : Invariant s) (d : Nat) :
    Invariant { s with rxTs := ts40 (answerBytes 5 d) } := by
  have hlt : (ts40 (answerBytes 5 d)).toNat < 2 ^ 40 := by
    rw [ts40_toNat (by simp)]
    simpa using leNat_lt (answerBytes 5 d)
  exact { h with timestamp := hlt }

theorem Invariant.setFrameIndex {s : State} (h : Invariant s) (i : BitVec 32) :
    Invariant { s with frameIndex := i } :=
  { h with }

theorem Invariant.setCurPath {s : State} (h : Invariant s) (p : Path) : Invariant { s with curPath := p } :=
  { h with }

theorem Invariant.setFrameCount {s : State} (h : Invariant s) (n : Nat) :
    Invariant { s with frameCount := n } :=
  { h with }

theorem Invariant.setEvents {s : State} (h : Invariant s) (events : List Event) :
    Invariant { s with events := events } :=
  { h with }

/-- The hard stop keeps the invariant (60_exceptions.md R236, R238). -/
theorem Invariant.halt {s : State} (h : Invariant s) (cause : HaltCause) (ok : Bool) :
    Invariant { s with seq := .halt, haltCause := some cause, captureOk := ok } :=
  { h with
    legal := by simp
    halted := by simp
    frameFull := by simp [inCycle]
    cirFull := by simp [inCycle]
    notYet := by simp [beforeFrame]
    frame := by simp [holdsFrame]
    chunks := by simp
    ready := by simp [recordReady]
    verdict := by simp }

/-- What the invariant asks of a value of `seq` that is not `HALT`, of `capture_ok`, and of the registers
that count bytes.  A clause that says nothing of a given value of `seq` need not be given. -/
structure Admits (c : Config) (q : Seq) (ok : Bool) (len cursor remaining : Nat) : Prop where
  legal   : ∀ k, q ≠ .reserved k := by simp
  running : q ≠ .halt := by simp
  notYet  : beforeFrame q = true → ok = false := by simp [beforeFrame]
  frame   : holdsFrame q = true → ok = true ∧ len ≤ c.frameCap := by simp [holdsFrame]
  chunks  : q = .frAcc → cursor + remaining = c.cirLen ∧ 1 ≤ remaining := by simp
  ready   : recordReady q = true → cursor = c.cirLen ∧ remaining = 0 := by simp [recordReady]
  verdict : q = .frDiag → ok = true → cursor = c.cirLen ∧ remaining = 0 ∧ len ≤ c.frameCap := by simp

/-- A move to an admitted value of `seq`, with other values of `capture_ok` and of the registers that
count bytes, keeps the invariant. -/
theorem Invariant.move {s : State} (h : Invariant s) {q : Seq} {ok : Bool} {len cursor remaining : Nat}
    (hs : s.seq ≠ .halt)
    (hfull : inCycle q = true →
      Memory.full s.cfg.frameCap s.frameBuf = true ∧ Memory.full s.cfg.cirLen s.cirBuf = true)
    (hq : Admits s.cfg q ok len cursor remaining) :
    Invariant { s with
      seq := q, captureOk := ok, frameLen := len, cursor := cursor, remaining := remaining } :=
  { h with
    legal := hq.legal
    halted := by simp [hq.running, h.haltCause_eq_none hs]
    frameFull := fun hc => (hfull hc).1
    cirFull := fun hc => (hfull hc).2
    notYet := hq.notYet
    frame := hq.frame
    chunks := hq.chunks
    ready := hq.ready
    verdict := hq.verdict }

/-! ## `START` establishes the invariant -/

theorem invariant_afterStart {cfg : Config} (hcfg : cfg.valid = true) (env : Env) :
    Invariant (State.afterStart cfg env) where
  config := hcfg
  started := rfl
  legal := by simp
  frameWf := rfl
  cirWf := rfl
  rawWf := rfl
  filesWf := rfl
  latch := Nat.two_pow_pos _
  snapshot := List.length_replicate
  timestamp := by simp [State.afterStart]
  halted := by simp
  frameFull := by simp [inCycle]
  cirFull := by simp [inCycle]
  notYet := by simp
  frame := by simp [holdsFrame]
  chunks := by simp
  ready := by simp [recordReady]
  verdict := by simp

/-! ## The operations keep the invariant -/

section

variable {s t : State}

theorem exec_arm_invariant (h : Invariant s) (hq : s.seq = .idle) (hx : exec .arm s = .next t) :
    Invariant t := by
  rcases exec_arm_next hx with rfl | ⟨r, rfl⟩ | ⟨d, r, rfl⟩
  · exact h
  · exact (h.devAnswered _ _ _).zeroFill.halt _ false
  · exact (h.devAnswered _ _ _).zeroFill.move (by simp [hq])
      (fun _ => ⟨Memory.full_writeCells_zeros _ _, Memory.full_writeCells_zeros _ _⟩) {}

theorem exec_stop_invariant (h : Invariant s) (hq : s.seq = .idle) (hx : exec .stop s = .next t) :
    Invariant t := by
  cases hx
  exact (h.setEvents (s.events ++ [.noticeDone])).move (q := .done) (by simp [hq]) (by simp [inCycle]) {}

/-- An operation that begins with a device command whose failure is the hard stop keeps the invariant
when its `OK` answer does. -/
theorem exec_hardStop_invariant {i : Instr} {c : DevCmd} (h : Invariant s)
    (hi : hardStopCommand s i = some c) (hx : exec i s = .next t)
    (hok : ∀ d r, s.env.nextDev = some (.ok d, r) → Invariant t) : Invariant t := by
  rcases exec_hardStop_next hi hx with rfl | ⟨r, rfl⟩ | ⟨d, r, ha⟩
  · exact h
  · exact (h.devAnswered _ _ _).halt _ _
  · exact hok d r ha

theorem exec_poll_invariant (h : Invariant s) (hq : s.seq = .armed) (hx : exec .poll s = .next t) :
    Invariant t := by
  refine exec_hardStop_invariant h rfl hx fun d r ha => ?_
  cases hx.symm.trans (exec_poll_ok ha)
  have hok : s.captureOk = false := h.notYet (by rw [hq]; rfl)
  refine ((h.devAnswered _ _ _).setLatch d).move (by simp [hq]) (fun _ => h.filled (by rw [hq]; rfl)) ?_
  split_ifs
  · exact { notYet := fun _ => hok }
  · exact {}
  · exact { notYet := fun _ => hok }

theorem exec_clrGood_invariant (h : Invariant s) (hq : s.seq = .frClr) (hx : exec .clrGood s = .next t) :
    Invariant t := by
  refine exec_hardStop_invariant h rfl hx fun d r ha => ?_
  cases hx.symm.trans (exec_clrGood_ok ha)
  exact (h.devAnswered _ _ _).move (by simp [hq]) (fun _ => h.filled (by rw [hq]; rfl))
    { notYet := fun _ => h.notYet (by rw [hq]; rfl) }

theorem exec_rdLen_invariant (h : Invariant s) (hq : s.seq = .frLen) (hx : exec .rdLen s = .next t) :
    Invariant t := by
  refine exec_hardStop_invariant h rfl hx fun d r ha => ?_
  cases hx.symm.trans (exec_rdLen_ok ha)
  refine (h.devAnswered _ _ _).move (by simp [hq]) (fun _ => h.filled (by rw [hq]; rfl)) ?_
  have hok : s.captureOk = false := h.notYet (by rw [hq]; rfl)
  split_ifs with hfits
  · exact { frame := fun _ => ⟨rfl, hfits⟩ }
  · exact { verdict := by simp [hok] }

theorem exec_rdFrame_invariant (h : Invariant s) (hq : s.seq = .frData) (hx : exec .rdFrame s = .next t) :
    Invariant t := by
  rcases exec_rdFrame_next hx with rfl | ⟨r, rfl⟩ | ⟨d, r, hfits, rfl⟩
  · exact h
  · exact (h.devAnswered _ _ _).halt _ _
  · have hbuf := (h.devAnswered (.frameRd s.frameLen) (.ok d) r).setFrameBuf
      (bytes := answerBytes s.frameLen d) (by simpa using hfits)
    exact hbuf.move (by simp [hq]) (fun _ => hbuf.filled (by simp [hq, inCycle]))
      { frame := fun _ => h.frame (by rw [hq]; rfl) }

theorem exec_xIdx_invariant (h : Invariant s) (hq : s.seq = .frIdx) (hx : exec .xIdx s = .next t) :
    Invariant t := by
  obtain ⟨b, rfl⟩ := exec_xIdx_next hx
  exact (h.setFrameIndex (frameIndexOf s.cfg b)).move (by simp [hq]) (fun _ => h.filled (by rw [hq]; rfl))
    { frame := fun _ => h.frame (by rw [hq]; rfl) }

theorem exec_rdTs_invariant (h : Invariant s) (hq : s.seq = .frTs) (hx : exec .rdTs s = .next t) :
    Invariant t := by
  refine exec_hardStop_invariant h rfl hx fun d r ha => ?_
  cases hx.symm.trans (exec_rdTs_ok ha)
  exact ((h.devAnswered _ _ _).setRxTs d).move (by simp [hq]) (fun _ => h.filled (by rw [hq]; rfl))
    { frame := fun _ => h.frame (by rw [hq]; rfl) }

/-- Two constraints of 00_scope.md R2: there is a byte of CIR to read, and the frame index lies inside the
frame buffer. -/
theorem bounds_of_valid {c : Config} (h : c.valid = true) :
    1 ≤ c.cirLen ∧ c.idxOff + 4 ≤ c.frameCap := by
  simp only [Config.valid, Bool.and_eq_true, decide_eq_true_eq] at h
  simp only [Config.cirLen]
  omega

theorem exec_accInit_invariant (h : Invariant s) (hq : s.seq = .frAcc0)
    (hx : exec .accInit s = .next t) : Invariant t := by
  cases hx
  exact h.move (by simp [hq]) (fun _ => h.filled (by rw [hq]; rfl))
    { frame := fun _ => h.frame (by rw [hq]; rfl)
      chunks := fun _ => ⟨Nat.zero_add _, (bounds_of_valid h.config).1⟩ }

/-- A failed chunk read keeps the invariant: the capture is abandoned (41_accumulator_chunk_reader.md R155). -/
theorem Invariant.chunkFailed (h : Invariant s) (hq : s.seq = .frAcc) (c : DevCmd) (offset : Nat)
    (r : Answers DevAnswer) :
    Invariant (raise (.chunkReadFailure offset) (s.devAnswered c .fail r)) :=
  (h.devAnswered _ _ _).move (by simp [hq]) (fun _ => h.filled (by rw [hq]; rfl)) {}

theorem exec_accF_invariant (h : Invariant s) (hq : s.seq = .frAcc) (hmore : s.cfg.chunk < s.remaining)
    (hx : exec .accF s = .next t) : Invariant t := by
  rcases readChunk_next hx with ⟨_, rfl⟩ | ⟨r, _, rfl⟩ | ⟨d, r, _, hraw, hcb, hk⟩
  · exact h
  · exact h.chunkFailed hq _ _ _
  · cases hk
    have hstored := h.chunkStored d r hraw hcb
    obtain ⟨hsum, _⟩ := h.chunks hq
    exact hstored.move (by simp [State.chunkStored, hq])
      (fun _ => hstored.filled (by simp [State.chunkStored, hq, inCycle]))
      { frame := fun _ => h.frame (by rw [hq]; rfl)
        chunks := fun _ => by simp only [State.chunkStored, State.devAnswered_cursor,
          State.devAnswered_remaining, State.devAnswered_cfg]; omega }

theorem exec_accL_invariant (h : Invariant s) (hq : s.seq = .frAcc) (hx : exec .accL s = .next t) :
    Invariant t := by
  rcases readChunk_next hx with ⟨_, rfl⟩ | ⟨r, _, rfl⟩ | ⟨d, r, _, hraw, hcb, hk⟩
  · exact h
  · exact h.chunkFailed hq _ _ _
  · cases hk
    have hstored := h.chunkStored d r hraw hcb
    obtain ⟨hsum, _⟩ := h.chunks hq
    obtain ⟨_, hlen⟩ := h.frame (by rw [hq]; rfl)
    exact hstored.move (by simp [State.chunkStored, hq])
      (fun _ => hstored.filled (by simp [State.chunkStored, hq, inCycle]))
      { verdict := fun _ _ => ⟨hsum, rfl, hlen⟩ }

theorem exec_frDiag_invariant (h : Invariant s) (hq : s.seq = .frDiag) (hx : exec .frDiag s = .next t) :
    Invariant t := by
  refine exec_hardStop_invariant h rfl hx fun d r ha => ?_
  cases hx.symm.trans (exec_frDiag_ok ha)
  refine ((h.devAnswered _ _ _).setDiag d).move (by simp [hq]) (fun _ => h.filled (by rw [hq]; rfl)) ?_
  split_ifs with hok
  · obtain ⟨hcursor, hremaining, hlen⟩ := h.verdict hq hok
    exact { frame := fun _ => ⟨hok, hlen⟩, ready := fun _ => ⟨hcursor, hremaining⟩ }
  · exact {}

theorem exec_serOpen_invariant (h : Invariant s) (hq : s.seq = .frOpen) (hx : exec .serOpen s = .next t) :
    Invariant t := by
  have hopen := h.sinkAnswered (.fileOpen (pathOfFrame s.cfg s.frameIndex))
  rcases exec_serOpen_next hx with rfl | ⟨r, rfl⟩ | ⟨r, rfl⟩
  · exact h
  · exact ((hopen .fail r).setEvents (s.events ++ [.logOpenFail (pathOfFrame s.cfg s.frameIndex)])).move
      (q := .idle) (by simp [hq]) (by simp [inCycle]) {}
  · exact ((hopen .ok r).setCurPath (pathOfFrame s.cfg s.frameIndex)).move
      (q := .frWrite) (by simp [hq]) (fun _ => h.filled (by rw [hq]; rfl))
      { frame := fun _ => h.frame (by rw [hq]; rfl), ready := fun _ => h.ready (by rw [hq]; rfl) }

theorem exec_serWr_invariant (h : Invariant s) (hq : s.seq = .frWrite) (hx : exec .serWr s = .next t) :
    Invariant t := by
  rcases exec_serWr_next hx with rfl | ⟨b, ⟨r, rfl⟩ | ⟨r, rfl⟩⟩
  · exact h
  · have hwrite := h.sinkAnswered (.fileWrite s.curPath b) .fail r
    exact (hwrite.setEvents (s.events ++ [.logWriteFail s.curPath])).move
      (q := .idle) (by simp [hq]) (by simp [inCycle]) {}
  · exact (h.sinkAnswered (.fileWrite s.curPath b) .ok r).move
      (by simp [hq]) (fun _ => h.filled (by rw [hq]; rfl))
      { frame := fun _ => h.frame (by rw [hq]; rfl), ready := fun _ => h.ready (by rw [hq]; rfl) }

theorem exec_count_invariant (h : Invariant s) (hq : s.seq = .frCount) (hx : exec .count s = .next t) :
    Invariant t := by
  cases hx
  exact (h.setFrameCount (s.frameCount + 1)).move (q := .idle) (by simp [hq]) (by simp [inCycle]) {}

theorem exec_clrErr_invariant (h : Invariant s) (hq : s.seq = .reClr) (hx : exec .clrErr s = .next t) :
    Invariant t := by
  refine exec_hardStop_invariant h rfl hx fun d r ha => ?_
  cases hx.symm.trans (exec_clrErr_ok ha)
  exact (h.devAnswered _ _ _).move (by simp [hq]) (fun _ => h.filled (by rw [hq]; rfl)) {}

theorem exec_rxRst_invariant (h : Invariant s) (hq : s.seq = .reRst) (hx : exec .rxRst s = .next t) :
    Invariant t := by
  refine exec_hardStop_invariant h rfl hx fun d r ha => ?_
  cases hx.symm.trans (exec_rxRst_ok ha)
  exact (h.devAnswered _ _ _).move (by simp [hq]) (fun _ => h.filled (by rw [hq]; rfl)) {}

theorem exec_reDiag_invariant (h : Invariant s) (hq : s.seq = .reDiag) (hx : exec .reDiag s = .next t) :
    Invariant t := by
  refine exec_hardStop_invariant h rfl hx fun d r ha => ?_
  cases hx.symm.trans (exec_reDiag_ok ha)
  exact ((h.devAnswered _ _ _).setDiag d).move (by simp [hq]) (by simp [inCycle]) {}

end

/-! ## Every step keeps the invariant -/

/-- The sequencer state whose operation an instruction is (30_encoding.md R107); `HALT`, which has none,
for the commands. -/
def source : Instr → Seq
  | .arm | .stop => .idle
  | .poll => .armed
  | .clrGood => .frClr
  | .rdLen => .frLen
  | .rdFrame => .frData
  | .xIdx => .frIdx
  | .rdTs => .frTs
  | .accInit => .frAcc0
  | .accL | .accF => .frAcc
  | .frDiag => .frDiag
  | .serOpen => .frOpen
  | .serWr => .frWrite
  | .count => .frCount
  | .clrErr => .reClr
  | .rxRst => .reRst
  | .reDiag => .reDiag
  | _ => .halt

theorem eq_source_of_selected {q : Seq} {cond : Bool} {i : Instr} (h : selected q cond = some i) :
    q = source i := by
  cases q <;> cases cond <;> simp [selected] at h <;> subst h <;> rfl

theorem moreChunks_of_selected_accF {s : State} (h : selected s.seq (condBit s) = some .accF) :
    s.cfg.chunk < s.remaining := by
  have hq : s.seq = .frAcc := eq_source_of_selected h
  by_contra hle
  simp [condBit, hq, moreChunks, hle, selected] at h

theorem lastChunk_of_selected_accL {s : State} (h : selected s.seq (condBit s) = some .accL) :
    s.remaining ≤ s.cfg.chunk := by
  have hq : s.seq = .frAcc := eq_source_of_selected h
  by_contra hlt
  simp [condBit, hq, moreChunks, Nat.not_le.1 hlt, selected] at h

/-- The selected operation keeps the invariant. -/
theorem exec_selected_invariant {i : Instr} {s t : State} (h : Invariant s)
    (hsel : selected s.seq (condBit s) = some i) (hx : exec i s = .next t) : Invariant t := by
  have hq : s.seq = source i := eq_source_of_selected hsel
  have hf : i.format = .seq := selected_format hsel
  cases i with
  | arm => exact exec_arm_invariant h hq hx
  | stop => exact exec_stop_invariant h hq hx
  | poll => exact exec_poll_invariant h hq hx
  | clrGood => exact exec_clrGood_invariant h hq hx
  | rdLen => exact exec_rdLen_invariant h hq hx
  | rdFrame => exact exec_rdFrame_invariant h hq hx
  | xIdx => exact exec_xIdx_invariant h hq hx
  | rdTs => exact exec_rdTs_invariant h hq hx
  | accInit => exact exec_accInit_invariant h hq hx
  | accL => exact exec_accL_invariant h hq hx
  | accF => exact exec_accF_invariant h hq (moreChunks_of_selected_accF hsel) hx
  | frDiag => exact exec_frDiag_invariant h hq hx
  | serOpen => exact exec_serOpen_invariant h hq hx
  | serWr => exact exec_serWr_invariant h hq hx
  | count => exact exec_count_invariant h hq hx
  | clrErr => exact exec_clrErr_invariant h hq hx
  | rxRst => exact exec_rxRst_invariant h hq hx
  | reDiag => exact exec_reDiag_invariant h hq hx
  | _ => cases hf

/-- A presented instruction keeps the invariant (log 9). -/
theorem exec_presented_invariant {i : Instr} {s t : State} (h : Invariant s) (hf : i.format ≠ .seq)
    (hx : exec i s = .next t) : Invariant t := by
  rcases presented_cases hf h.started hx with rfl | ⟨c, a, r, _, rfl⟩ | ⟨c, a, r, _, rfl⟩ | ⟨_, hterm, rfl⟩
  · exact h
  · exact h.devAnswered c a r
  · exact h.sinkAnswered c a r
  · have hq : s.seq ≠ .halt := fun hq => by simp [hq, terminal] at hterm
    exact h.move hq (by simp [inCycle]) {}

/-! ## Under the invariant no access is bad -/

theorem noBadAccess_next (t : State) : noBadAccess (.next t) := fun _ _ _ => ⟨nofun, nofun⟩

theorem noBadAccess_refused (r : Refusal) : noBadAccess (.refused r) := fun _ _ _ => ⟨nofun, nofun⟩

theorem noBadAccess_halted (c : Option HaltCause) : noBadAccess (.fault (.halted c)) :=
  fun _ _ _ => ⟨nofun, nofun⟩

/-- An operation that begins with a device command whose failure is the hard stop completes when its `OK`
answer does. -/
theorem exec_hardStop_completes {i : Instr} {s : State} {c : DevCmd} (hi : hardStopCommand s i = some c)
    (hok : ∀ d r, s.env.nextDev = some (.ok d, r) → ∃ t, exec i s = .next t) :
    ∃ t, exec i s = .next t := by
  rcases exec_hardStop_cases hi with h | ⟨r, h⟩ | ⟨d, r, ha⟩
  · exact ⟨_, h⟩
  · exact ⟨_, h⟩
  · exact hok d r ha

theorem readChunk_completes {n : Nat} {s : State} {k : State → Out} (hraw : n ≤ s.cfg.chunk)
    (hcb : s.cursor + n ≤ s.cfg.cirLen) (hk : ∀ u, ∃ t, k u = .next t) :
    ∃ t, readChunk n s k = .next t := by
  rcases readChunk_cases k hraw hcb with ⟨_, h⟩ | ⟨r, _, h⟩ | ⟨d, r, _, h⟩
  · exact ⟨_, h⟩
  · exact ⟨_, h⟩
  · obtain ⟨t, ht⟩ := hk (s.chunkStored n d r)
    exact ⟨t, h.trans ht⟩

theorem exec_serWr_completes {s : State} (hfull : Memory.full s.cfg.cirLen s.cirBuf = true) :
    ∃ t, exec .serWr s = .next t := by
  obtain ⟨cir, hcir⟩ := readCells_of_full s.cfg.cirLen s.cirBuf hfull 0 s.cfg.cirLen (by simp)
  rcases ha : s.env.nextSink with _ | ⟨_ | _, r⟩
  · exact ⟨_, exec_serWr_unanswered hcir ha⟩
  · exact ⟨_, exec_serWr_fail hcir ha⟩
  · exact ⟨_, exec_serWr_ok hcir ha⟩

/-- Under the invariant the selected operation completes: every access it makes is inside its space and
reads bytes that have been written. -/
theorem exec_selected_completes {i : Instr} {s : State} (h : Invariant s)
    (hsel : selected s.seq (condBit s) = some i) : ∃ t, exec i s = .next t := by
  have hq : s.seq = source i := eq_source_of_selected hsel
  have hf : i.format = .seq := selected_format hsel
  cases i with
  | stop | accInit | count => exact ⟨_, rfl⟩
  | arm =>
    rcases ha : s.env.nextDev with _ | ⟨_ | d, r⟩
    · exact ⟨_, exec_arm_unanswered ha⟩
    · exact ⟨_, exec_arm_fail ha⟩
    · exact ⟨_, exec_arm_ok ha⟩
  | rdFrame =>
    exact exec_hardStop_completes rfl fun d r ha =>
      ⟨_, exec_rdFrame_ok ha (h.frame (by rw [hq]; rfl)).2⟩
  | xIdx =>
    obtain ⟨_, hin⟩ := bounds_of_valid h.config
    obtain ⟨b, hb⟩ := readCells_of_full _ _ (h.frameFull (by rw [hq]; rfl)) _ 4 hin
    exact ⟨_, exec_xIdx hin hb⟩
  | accL =>
    obtain ⟨hsum, _⟩ := h.chunks hq
    exact readChunk_completes (lastChunk_of_selected_accL hsel) hsum.le fun _ => ⟨_, rfl⟩
  | accF =>
    obtain ⟨hsum, _⟩ := h.chunks hq
    have hmore := moreChunks_of_selected_accF hsel
    exact readChunk_completes le_rfl (by omega) fun _ => ⟨_, rfl⟩
  | serOpen =>
    rcases ha : s.env.nextSink with _ | ⟨_ | _, r⟩
    · exact ⟨s, by simp [exec, execSerOpen, withSink, ha]⟩
    · exact ⟨_, exec_serOpen_fail ha⟩
    · exact ⟨_, exec_serOpen_ok ha⟩
  | serWr => exact exec_serWr_completes (h.cirFull (by rw [hq]; rfl))
  | poll => exact exec_hardStop_completes rfl fun d r ha => ⟨_, exec_poll_ok ha⟩
  | clrGood => exact exec_hardStop_completes rfl fun d r ha => ⟨_, exec_clrGood_ok ha⟩
  | rdLen => exact exec_hardStop_completes rfl fun d r ha => ⟨_, exec_rdLen_ok ha⟩
  | rdTs => exact exec_hardStop_completes rfl fun d r ha => ⟨_, exec_rdTs_ok ha⟩
  | frDiag => exact exec_hardStop_completes rfl fun d r ha => ⟨_, exec_frDiag_ok ha⟩
  | clrErr => exact exec_hardStop_completes rfl fun d r ha => ⟨_, exec_clrErr_ok ha⟩
  | rxRst => exact exec_hardStop_completes rfl fun d r ha => ⟨_, exec_rxRst_ok ha⟩
  | reDiag => exact exec_hardStop_completes rfl fun d r ha => ⟨_, exec_reDiag_ok ha⟩
  | _ => cases hf

/-- RXCAP's own turn makes no bad access. -/
theorem noBadAccess_step_core {s u : State} (h : Invariant u) (hf : fetch s = fetchCore u) :
    noBadAccess (step s) := by
  cases hterm : terminal u.seq
  · obtain ⟨i, hsel⟩ := exists_selected hterm h.legal
    obtain ⟨t, ht⟩ := exec_selected_completes h hsel
    have hd : decode ⟨.seq, dispatchWord u, []⟩ = .ok i := decode_seqWord hsel
    rw [step_of_decode (hf.trans (fetchCore_running h.started hterm)) hd, ht]
    exact noBadAccess_next t
  · cases hq : u.seq with
    | halt =>
      rw [step_of_stop (o := .fault (.halted u.haltCause)) (by simp [hf, fetchCore, h.started, hq])]
      exact noBadAccess_halted _
    | done | killed =>
      rw [step_of_stop (o := .refused .sessionEnded) (by simp [hf, fetchCore, h.started, hq])]
      exact noBadAccess_refused _
    | _ => simp [hq, terminal] at hterm

/-- A presented instruction accesses no memory. -/
theorem noBadAccess_exec_presented {i : Instr} (hf : i.format ≠ .seq) (s : State) :
    noBadAccess (exec i s) := by
  cases hfmt : i.format with
  | seq => exact absurd hfmt hf
  | dri =>
    obtain ⟨c, hc⟩ := exec_of_dri hfmt s
    obtain ⟨t, ht, _⟩ := devCommand_next c s
    rw [hc, ht]
    exact noBadAccess_next t
  | snk =>
    obtain ⟨c, hc⟩ := exec_of_snk hfmt s
    obtain ⟨t, ht, _⟩ := sinkCommand_next c s
    rw [hc, ht]
    exact noBadAccess_next t
  | host =>
    cases i with
    | start cfg =>
      simp only [exec, execStart]
      split_ifs
      · exact noBadAccess_refused _
      · exact noBadAccess_next _
      · exact noBadAccess_refused _
    | kill =>
      cases hterm : terminal s.seq
      · rw [exec_kill_of_running hterm]
        exact noBadAccess_next _
      · rw [exec_kill_of_terminal hterm]
        exact noBadAccess_next _
    | _ => cases hfmt

theorem noBadAccess_step_present {s : State} {e : Encoded} {ts : List Turn}
    (hturns : s.env.turns = .present e :: ts) : noBadAccess (step s) := by
  by_cases hf : e.format = .seq
  · have hstop : fetch s = .stop (.refused .sequencerWordPresented) := by simp [fetch, hturns, hf]
    rw [step_of_stop hstop]
    exact noBadAccess_refused _
  · have hfetch := fetch_of_present hturns hf
    cases hd : decode e with
    | ok i =>
      rw [step_of_decode hfetch hd]
      exact noBadAccess_exec_presented (decode_format hd hf ▸ hf) _
    | error err =>
      have hrefused : step s = .refused (.undecodable err) := by
        cases hfmt : e.format with
        | seq => exact absurd hfmt hf
        | dri | snk | host => simp [step, hfetch, hd, undecodable, hfmt]
      rw [hrefused]
      exact noBadAccess_refused _

/-! ## The obligations -/

/-- Settles O43: a step is the selected operation, the hard stop of an illegal word, or a presented
instruction, and each keeps the invariant. -/
theorem stepKeepsInvariant : Obligations.StepKeepsInvariant := by
  intro s t h hstep
  rcases step_next hstep with ⟨ts, _, _, _, ⟨i, hsel, hx⟩ | ⟨_, rfl⟩⟩ | ⟨e, ts, i, _, hf, hd, hx⟩
  · exact exec_selected_invariant (h.withTurns ts) hsel hx
  · exact (h.withTurns ts).halt _ _
  · exact exec_presented_invariant (h.withTurns ts) (decode_format hd hf ▸ hf) hx

/-- Settles O44: under the invariant RXCAP's own operation completes, and no presented one accesses
memory. -/
theorem invariantPreventsBadAccess : Obligations.InvariantPreventsBadAccess := by
  intro s h
  rcases hturns : s.env.turns with _ | ⟨_ | e, ts⟩
  · exact noBadAccess_step_core h (fetch_of_no_turns hturns)
  · exact noBadAccess_step_core (h.withTurns ts) (fetch_of_core_turn hturns)
  · exact noBadAccess_step_present hturns

/-- Settles O42: the state is `afterStart`, whatever the one before. -/
theorem startEstablishesInvariant : Obligations.StartEstablishesInvariant := by
  intro s t cfg h
  obtain ⟨_, hcfg, rfl⟩ := exec_start_next h
  exact invariant_afterStart hcfg s.env

/-- Settles O41: reset is `afterStart` with a configuration that meets the constraints. -/
theorem resetMeetsInvariant : Obligations.ResetMeetsInvariant :=
  invariant_afterStart (by decide) _

end Sys2Proof
end

section
/-! What every step of a started RXCAP keeps: the configuration, the outputs, the count of completed writes
and the bound of a session (10_state.md sections 3, 6 and 7, 45_session_interface.md R223). -/

namespace Sys2Proof.Machine

open Sys2Proof

/-! ## A step of a started RXCAP -/

/-- A step is RXCAP's own turn or that of a presented word, with the turn used up. -/
theorem step_turn_cases {s t : State} (h : step s = .next t) :
    ∃ u, u = s.withTurns s.env.turns.tail ∧
      (coreRuns u t ∨ ∃ e i, Turn.present e ∈ s.env.turns ∧ i.format = e.format ∧ i.format ≠ .seq ∧
        exec i u = .next t) := by
  refine ⟨_, rfl, ?_⟩
  rcases step_next h with ⟨ts, ⟨hturns, rfl⟩ | hturns, hrun⟩ | ⟨e, ts, i, hturns, hf, hd, hx⟩
  · rw [hturns]
    exact .inl hrun
  · rw [hturns]
    exact .inl hrun
  · have hfmt : i.format = e.format := decode_format hd hf
    rw [hturns]
    exact .inr ⟨e, i, List.mem_cons_self, hfmt, hfmt ▸ hf, hx⟩

/-- What a presented instruction keeps; only a `KILL` outside the terminal states moves `seq`, and only a
command adds to the trace. -/
theorem presented_keeps {i : Instr} {s t : State} (hf : i.format ≠ .seq) (hs : s.started = true)
    (h : exec i s = .next t) :
    t.cfg = s.cfg ∧ t.events = s.events ∧ t.haltCause = s.haltCause ∧
      (t.seq = s.seq ∨ terminal s.seq = false) ∧
      (t.env.trace = s.env.trace ∨ ∃ x, t.env.trace = s.env.trace ++ [x]) := by
  rcases presented_cases hf hs h with rfl | ⟨c, a, r, _, rfl⟩ | ⟨c, a, r, _, rfl⟩ | ⟨_, hterm, rfl⟩
  · exact ⟨rfl, rfl, rfl, .inl rfl, .inl rfl⟩
  · exact ⟨rfl, rfl, rfl, .inl rfl, .inr ⟨_, rfl⟩⟩
  · exact ⟨rfl, rfl, rfl, .inl rfl, .inr ⟨_, rfl⟩⟩
  · exact ⟨rfl, rfl, rfl, .inr hterm, .inl rfl⟩

/-- What RXCAP's own turn keeps; it may append events, halt, and add one transaction to the trace. -/
theorem coreRuns_keeps {s t : State} (h : coreRuns s t) :
    t.cfg = s.cfg ∧ t.started = true ∧ t.env.turns = s.env.turns ∧
      (∃ new, t.events = s.events ++ new) ∧ (t.haltCause = s.haltCause ∨ t.seq = .halt) ∧
      (t.env.trace = s.env.trace ∨ ∃ x, t.env.trace = s.env.trace ++ [x]) := by
  obtain ⟨hs, _, ⟨i, _, heff⟩ | ⟨c, _, rfl⟩⟩ := coreRuns_cases h
  · refine ⟨heff.cfg, heff.started.trans hs, heff.turns, heff.events, heff.halt, ?_⟩
    rcases heff.trace with rfl | ⟨htrace, _⟩ | ⟨x, htrace, _⟩
    · exact .inl rfl
    · exact .inl htrace
    · exact .inr ⟨x, htrace⟩
  · exact ⟨rfl, hs, rfl, ⟨[], by simp⟩, .inr rfl, .inl rfl⟩

/-! ## The count of completed writes -/

theorem completedWrites_append (trace : List Transaction) (x : Transaction) :
    completedWrites (trace ++ [x]) = completedWrites trace + if completedWrite x then 1 else 0 := by
  simp [completedWrites, List.countP_append, List.countP_singleton]

/-- Outside `KILLED`: one completed write is not yet counted in `FR_COUNT`, and none elsewhere. -/
theorem countsWrites_iff {s : State} (hq : s.seq ≠ .killed) :
    countsWrites s ↔
      completedWrites s.env.trace = s.frameCount + if s.seq = .frCount then 1 else 0 := by
  cases hs : s.seq with
  | killed => exact absurd hs hq
  | _ => simp [countsWrites, hs]

theorem countsWrites_killed_iff {s : State} (hq : s.seq = .killed) :
    countsWrites s ↔ s.frameCount ≤ completedWrites s.env.trace ∧
      completedWrites s.env.trace ≤ s.frameCount + 1 := by
  simp [countsWrites, hq]

theorem coreRuns_frameCount_eq {s t : State} (h : coreRuns s t) :
    t.frameCount = s.frameCount + if s.seq = .frCount then 1 else 0 := by
  rcases coreRuns_frameCount h with ⟨hq, hcount⟩ | ⟨hq, rfl⟩
  · simp [hq, hcount]
  · simp [hq]

/-- RXCAP's own turn completes a write exactly when it reaches `FR_COUNT` (42_record_serializer.md R176). -/
theorem coreRuns_completedWrites {s t : State} (h : coreRuns s t) :
    completedWrites t.env.trace = completedWrites s.env.trace + if t.seq = .frCount then 1 else 0 := by
  obtain ⟨_, _, ⟨i, hsel, heff⟩ | ⟨c, _, rfl⟩⟩ := coreRuns_cases h
  · have hserWr : t.seq = .frCount → i = .serWr := by
      intro ht
      have hq := (coreRuns_to_frCount h ht).1
      simpa [hq, condBit, selected, eq_comm] using hsel
    rcases heff.trace with hts | ⟨htrace, hne⟩ | ⟨x, htrace, hx⟩
    · have ht : t.seq ≠ .frCount := fun ht => by
        have hq := (coreRuns_to_frCount h ht).1
        rw [← hts, ht] at hq
        cases hq
      simp [hts ▸ ht, hts]
    · rw [htrace, if_neg fun ht => hne (hserWr ht), Nat.add_zero]
    · have hiff : completedWrite x = true ↔ t.seq = .frCount :=
        hx.trans ⟨fun h => h.2, fun ht => ⟨hserWr ht, ht⟩⟩
      rw [htrace, completedWrites_append]
      simp only [hiff]
  · simp

theorem killed_not_mem_successors (q : Seq) : .killed ∉ successors q := by
  cases q <;> simp [successors]

theorem coreRuns_seq_ne_killed {s t : State} (h : coreRuns s t) : s.seq ≠ .killed ∧ t.seq ≠ .killed := by
  have hs : s.seq ≠ .killed := fun hq => by
    have hterm := h.2.1
    simp [hq, terminal] at hterm
  refine ⟨hs, fun ht => ?_⟩
  rcases coreRuns_successors h with rfl | hmem
  · exact hs ht
  · exact killed_not_mem_successors s.seq (ht ▸ hmem)

theorem coreRuns_countsWrites {s t : State} (h : coreRuns s t) (hc : countsWrites s) :
    countsWrites t := by
  obtain ⟨hs, ht⟩ := coreRuns_seq_ne_killed h
  rw [countsWrites_iff hs] at hc
  rw [countsWrites_iff ht, coreRuns_completedWrites h, coreRuns_frameCount_eq h, hc]

/-- A `KILL` in `FR_COUNT` leaves one completed write uncounted (log 20). -/
theorem countsWrites_killed {s : State} (hq : s.seq ≠ .killed) (hc : countsWrites s) :
    countsWrites { s with seq := .killed } := by
  rw [countsWrites_iff hq] at hc
  refine (countsWrites_killed_iff rfl).2 ?_
  dsimp only
  split_ifs at hc <;> omega

/-! ## A step when only the host presents words -/

/-- When only the host presents words, a step is RXCAP's own turn, uses up a turn, or is `KILL`. -/
theorem step_hostOnly_cases {s t : State} (hs : s.started = true) (hhost : hostOnly s)
    (h : step s = .next t) :
    ∃ u, u = s.withTurns s.env.turns.tail ∧
      (coreRuns u t ∨ t = u ∨ (terminal u.seq = false ∧ t = { u with seq := .killed })) := by
  obtain ⟨u, rfl, hrun | ⟨e, i, hmem, hfmt, hf, hx⟩⟩ := step_turn_cases h
  · exact ⟨_, rfl, .inl hrun⟩
  · have hi : i.format = .host := hfmt.trans (hhost e hmem)
    refine ⟨_, rfl, .inr ?_⟩
    rcases presented_cases (s := s.withTurns s.env.turns.tail) hf hs hx with
      rfl | ⟨_, _, _, hdri, _⟩ | ⟨_, _, _, hsnk, _⟩ | ⟨_, hterm, rfl⟩
    · exact .inl rfl
    · simp [hi] at hdri
    · simp [hi] at hsnk
    · exact .inr ⟨hterm, rfl⟩

theorem hostOnly_of_turns {s t : State} (hhost : hostOnly s) (h : t.env.turns = s.env.turns.tail) :
    hostOnly t :=
  fun e he => hhost e (List.mem_of_mem_tail (h ▸ he))

theorem step_countsWrites {s t : State} (hs : s.started = true) (hhost : hostOnly s)
    (hc : countsWrites s) (h : step s = .next t) :
    t.started = true ∧ hostOnly t ∧ countsWrites t := by
  obtain ⟨u, rfl, hrun | rfl | ⟨hterm, rfl⟩⟩ := step_hostOnly_cases hs hhost h
  · obtain ⟨_, ht, hturns, _⟩ := coreRuns_keeps hrun
    exact ⟨ht, hostOnly_of_turns hhost hturns, coreRuns_countsWrites hrun hc⟩
  · exact ⟨hs, hostOnly_of_turns hhost rfl, hc⟩
  · have hq : s.seq ≠ .killed := fun hq => by simp [hq, terminal] at hterm
    exact ⟨hs, hostOnly_of_turns hhost rfl,
      countsWrites_killed (s := s.withTurns s.env.turns.tail) hq hc⟩

/-! ## The bound of a session -/

theorem boundReached_iff (s : State) :
    boundReached s = true ↔ ∃ m, s.cfg.maxFrames = some m ∧ m ≤ s.frameCount := by
  cases hm : s.cfg.maxFrames <;> simp [boundReached, hm]

/-- In `IDLE` RXCAP's own turn is `STOP` at the bound, and does not end the session below it
(40_reception_state_machine.md R121). -/
theorem coreRuns_idle {s t : State} (h : coreRuns s t) (hq : s.seq = .idle) :
    t.seq = .done ↔ boundReached s = true := by
  obtain ⟨_, _, ⟨i, hsel, hx⟩ | ⟨hsel, _⟩⟩ := h
  · cases hb : boundReached s
    · obtain rfl : i = .arm := by simpa [hq, condBit, hb, selected, eq_comm] using hsel
      rcases (exec_effect rfl hx).target with rfl | hmem
      · simp [hq]
      · exact iff_of_false (fun ht => by simp [ht, targets] at hmem) Bool.false_ne_true
    · obtain rfl : i = .stop := by simpa [hq, condBit, hb, selected, eq_comm] using hsel
      cases hx
      exact iff_of_true rfl rfl
  · cases hb : boundReached s <;> simp [hq, condBit, hb, selected] at hsel

/-- The cycle is entered from `IDLE`, and `FR_COUNT` ends it. -/
theorem inCycle_of_mem_successors {q q' : Seq} (h : q' ∈ successors q) (hq' : inCycle q' = true) :
    q = .idle ∨ (inCycle q = true ∧ q ≠ .frCount) := by
  cases q with
  | idle => exact .inl rfl
  | done | halt | killed => simp [successors] at h
  | frCount | reserved _ =>
    simp [successors] at h
    simp [h, inCycle] at hq'
  | _ => exact .inr ⟨rfl, by simp⟩

theorem eq_idle_of_done_mem_successors {q : Seq} (h : .done ∈ successors q) : q = .idle := by
  cases q <;> simp [successors] at h ⊢

theorem coreRuns_boundHeld {s t : State} (h : coreRuns s t) (hb : boundHeld s) : boundHeld t := by
  intro m hm
  obtain ⟨hcfg, _⟩ := coreRuns_keeps h
  obtain ⟨hle, hlt⟩ := hb m (hcfg ▸ hm)
  rcases coreRuns_frameCount h with ⟨hq, hcount⟩ | ⟨hq, rfl⟩
  · refine ⟨hcount ▸ hle, fun hcyc => hcount ▸ ?_⟩
    rcases coreRuns_successors h with rfl | hmem
    · exact hlt hcyc
    · rcases inCycle_of_mem_successors hmem hcyc with hidle | ⟨hcyc', _⟩
      · by_contra hnot
        have hreached : boundReached s = true := (boundReached_iff s).2 ⟨m, hcfg ▸ hm, Nat.not_lt.1 hnot⟩
        simp [(coreRuns_idle h hidle).2 hreached, inCycle] at hcyc
      · exact hlt hcyc'
  · exact ⟨hlt (by rw [hq]; rfl), by simp [inCycle]⟩

/-- RXCAP ends a session when exactly the bound has been counted (45_session_interface.md R223). -/
theorem coreRuns_to_done {s t : State} (h : coreRuns s t) (hb : boundHeld s) (hq : s.seq ≠ .done)
    (ht : t.seq = .done) : t.cfg.maxFrames = some t.frameCount := by
  have hmem : t.seq ∈ successors s.seq :=
    (coreRuns_successors h).resolve_left fun hts => hq (hts ▸ ht)
  have hidle : s.seq = .idle := eq_idle_of_done_mem_successors (ht ▸ hmem)
  obtain ⟨m, hm, hle⟩ := (boundReached_iff s).1 ((coreRuns_idle h hidle).1 ht)
  obtain ⟨hcfg, _⟩ := coreRuns_keeps h
  have hcount : t.frameCount = s.frameCount := by simp [coreRuns_frameCount_eq h, hidle]
  rw [hcfg, hcount, hm, Nat.le_antisymm hle (hb m hm).1]

/-! ## The obligations -/

/-- Settles O45: RXCAP's own turn completes a write exactly when it reaches `FR_COUNT`, and counts one
exactly when it leaves it. -/
theorem stepKeepsCompletedWriteCount : Obligations.StepKeepsCompletedWriteCount :=
  fun _ _ hs hhost hc h => step_countsWrites hs hhost hc h

/-- Settles O46: the bound is checked in `IDLE`, and in `DONE` the counter is the number of completed
writes. -/
theorem boundedSessionWritesExactlyBound : Obligations.BoundedSessionWritesExactlyBound := by
  intro s t hs hhost hc hb h
  obtain ⟨_, _, hct⟩ := step_countsWrites hs hhost hc h
  obtain ⟨u, rfl, hrun | rfl | ⟨_, rfl⟩⟩ := step_hostOnly_cases hs hhost h
  · refine ⟨coreRuns_boundHeld hrun hb, fun hq ht => ⟨_, coreRuns_to_done hrun hb hq ht, ?_⟩⟩
    simpa [ht] using (countsWrites_iff (by simp [ht])).1 hct
  · exact ⟨hb, fun hq ht => absurd ht hq⟩
  · exact ⟨fun m hm => ⟨(hb m hm).1, by simp [inCycle]⟩, fun _ ht => by cases ht⟩

/-- Settles O47: the targets of the selected operation are among the successors. -/
theorem sequencerFollowsItsTable : Obligations.SequencerFollowsItsTable :=
  fun _ _ hturns h => (coreRuns_successors (coreRuns_of_step hturns h)).symm

/-- Settles O48: neither kind of turn writes the configuration. -/
theorem configurationIsReadOnly : Obligations.ConfigurationIsReadOnly := by
  intro s t hs h
  obtain ⟨u, rfl, hrun | ⟨_, _, _, _, hf, hx⟩⟩ := step_turn_cases h
  · exact (coreRuns_keeps hrun).1
  · exact (presented_keeps (s := s.withTurns s.env.turns.tail) hf hs hx).1

/-- Settles O49: the only operation whose effect changes the counter is `COUNT`. -/
theorem counterChangesOnlyInCount : Obligations.CounterChangesOnlyInCount :=
  fun _ _ hs h => step_frameCount hs h

/-- Settles O50: under the invariant a halt cause stands in `HALT` only, where RXCAP makes no step and no
presented word moves `seq`. -/
theorem eventsGrowAndHaltCauseIsSticky : Obligations.EventsGrowAndHaltCauseIsSticky := by
  intro s t hs h
  obtain ⟨u, rfl, hrun | ⟨_, _, _, _, hf, hx⟩⟩ := step_turn_cases h
  · obtain ⟨_, _, _, hevents, hhalt, _⟩ := coreRuns_keeps hrun
    refine ⟨hevents, fun hne => hhalt.resolve_left hne, fun hinv hcause => ?_⟩
    have hterm : terminal s.seq = false := hrun.2.1
    simp [hinv.halted.2 hcause, terminal] at hterm
  · obtain ⟨_, hevents, hcause, hseq, _⟩ := presented_keeps (s := s.withTurns s.env.turns.tail) hf hs hx
    refine ⟨⟨[], by simpa using hevents⟩, fun hne => absurd hcause hne, fun hinv hset => ⟨hcause, ?_⟩⟩
    have hq : s.seq = .halt := hinv.halted.2 hset
    rcases hseq with hseq | hterm
    · exact hseq.trans hq
    · simp [hq, terminal] at hterm

/-- Settles O51: both kinds of turn add one entry at most. -/
theorem atMostOneTransactionPerStep : Obligations.AtMostOneTransactionPerStep := by
  intro s t hs h
  obtain ⟨u, rfl, hrun | ⟨_, _, _, _, hf, hx⟩⟩ := step_turn_cases h
  · obtain ⟨_, _, _, _, _, htrace⟩ := coreRuns_keeps hrun
    exact htrace
  · obtain ⟨_, _, _, _, htrace⟩ := presented_keeps (s := s.withTurns s.env.turns.tail) hf hs hx
    exact htrace

end Sys2Proof.Machine
end

section
/-! Runs of several steps: a capture that is abandoned or dropped, the error path (60_exceptions.md section 2)
and the `POLL` that repeats for ever. -/

namespace Sys2Proof.Machine

open Sys2Proof

/-! ## Runs -/

theorem core_run_two {s t u : State} (h₁ : step s = .next t) (h₂ : step t = .next u) :
    core.run 2 s = .next u :=
  (core_run_succ h₁).trans (core_run_succ h₂)

theorem core_run_three {s t u v : State} (h₁ : step s = .next t) (h₂ : step t = .next u)
    (h₃ : step u = .next v) : core.run 3 s = .next v :=
  (core_run_succ h₁).trans (core_run_two h₂ h₃)

/-- After a capture that failed or was dropped, the diagnostics are read and the next cycle starts
(40_reception_state_machine.md R128). -/
theorem step_frDiag_drops {s : State} {d : Nat} {r : Answers DevAnswer} (hs : s.started = true)
    (hturns : s.env.turns = []) (hq : s.seq = .frDiag) (hok : s.captureOk = false)
    (ha : s.env.nextDev = some (.ok d, r)) :
    step s = .next { s.devAnswered .diagRd (.ok d) r with
      diag := answerBytes s.cfg.diagW d
      seq := .idle } := by
  have hsel : selected s.seq (condBit s) = some .frDiag := by simp [hq, condBit, selected]
  rw [step_selected hs hturns hsel, exec_frDiag_ok ha, if_neg (by simp [hok])]

/-! The three operations of the error path (40_reception_state_machine.md R130 to R132), answered. -/

theorem step_clrErr {s : State} {d : Nat} {r : Answers DevAnswer} (hs : s.started = true)
    (hturns : s.env.turns = []) (hq : s.seq = .reClr) (ha : s.env.nextDev = some (.ok d, r)) :
    step s = .next { s.devAnswered (.statusClr s.cfg.errMask) (.ok d) r with seq := .reRst } :=
  (step_selected hs hturns (by simp [hq, condBit, selected])).trans (exec_clrErr_ok ha)

theorem step_rxRst {s : State} {d : Nat} {r : Answers DevAnswer} (hs : s.started = true)
    (hturns : s.env.turns = []) (hq : s.seq = .reRst) (ha : s.env.nextDev = some (.ok d, r)) :
    step s = .next { s.devAnswered .rxReset (.ok d) r with seq := .reDiag } :=
  (step_selected hs hturns (by simp [hq, condBit, selected])).trans (exec_rxRst_ok ha)

theorem step_reDiag {s : State} {d : Nat} {r : Answers DevAnswer} (hs : s.started = true)
    (hturns : s.env.turns = []) (hq : s.seq = .reDiag) (ha : s.env.nextDev = some (.ok d, r)) :
    step s = .next { s.devAnswered .diagRd (.ok d) r with
      diag := answerBytes s.cfg.diagW d
      seq := .idle } :=
  (step_selected hs hturns (by simp [hq, condBit, selected])).trans (exec_reDiag_ok ha)

/-- A `POLL` that shows neither event, on answers that stay the same, changes the latch and the trace only. -/
theorem step_poll_again {s : State} {d : Nat} (hs : s.started = true) (hturns : s.env.turns = [])
    (hq : s.seq = .armed) (ha : s.env.nextDev = some (.ok d, s.env.devAnswers))
    (hgood : answerStatus s.cfg d &&& s.cfg.goodMask = 0)
    (herr : answerStatus s.cfg d &&& s.cfg.errMask = 0) :
    step s = .next { s with
      statusLatch := answerStatus s.cfg d
      env := { s.env with trace := s.env.trace ++ [.dev .statusRd (.ok d)] } } := by
  have hsel : selected s.seq (condBit s) = some .poll := by simp [hq, condBit, selected]
  rw [step_selected hs hturns hsel, exec_poll_ok ha, if_neg (not_not.2 hgood), if_neg (not_not.2 herr), ← hq]
  rfl

/-! ## The obligations -/

/-- Settles O52: the failed read leaves `FR_DIAG` with `capture_ok` 0. -/
theorem chunkFailureDropsCapture : Obligations.ChunkFailureDropsCapture := by
  intro s d hs hturns hq htake
  obtain ⟨r₁, ha₁, htake⟩ := Answers.take_eq_cons htake
  obtain ⟨r₂, ha₂, _⟩ := Answers.take_eq_cons htake
  have hrun := core_run_two (step_chunk_fail hs hturns hq ha₁)
    (step_frDiag_drops (d := d) (r := r₂) hs hturns rfl rfl ha₂)
  refine ⟨_, hrun, rfl, rfl, rfl, rfl, rfl, ?_⟩
  have hsize : min s.cfg.chunk s.remaining =
      if s.cfg.chunk < s.remaining then s.cfg.chunk else s.remaining := by
    split_ifs <;> omega
  simp [hsize, accOffset]

/-- Settles O53: a length above the capacity leaves `FR_DIAG` with `capture_ok` as it was. -/
theorem oversizedFrameIsDropped : Obligations.OversizedFrameIsDropped := by
  intro s n d hs hturns hq hok htake hover
  obtain ⟨r₁, ha₁, htake⟩ := Answers.take_eq_cons htake
  obtain ⟨r₂, ha₂, _⟩ := Answers.take_eq_cons htake
  have hsel : selected s.seq (condBit s) = some .rdLen := by simp [hq, condBit, selected]
  obtain ⟨_, hdropped, _⟩ := rdLenTestsCapacity s r₁
  have hrun := core_run_two ((step_selected hs hturns hsel).trans (hdropped n ha₁ hover))
    (step_frDiag_drops (d := d) (r := r₂) hs hturns rfl hok ha₂)
  exact ⟨_, hrun, rfl, hok, rfl, rfl, rfl, by simp [afterDev]⟩

/-- Settles O54: each of the three states selects the next of the three operations. -/
theorem errorPathClearsResetsDrains : Obligations.ErrorPathClearsResetsDrains := by
  intro s d₁ d₂ d₃ hs hturns hq htake
  obtain ⟨r₁, ha₁, htake⟩ := Answers.take_eq_cons htake
  obtain ⟨r₂, ha₂, htake⟩ := Answers.take_eq_cons htake
  obtain ⟨r₃, ha₃, _⟩ := Answers.take_eq_cons htake
  have hrun := core_run_three (step_clrErr hs hturns hq ha₁)
    (step_rxRst (d := d₂) (r := r₂) hs hturns rfl ha₂) (step_reDiag (d := d₃) (r := r₃) hs hturns rfl ha₃)
  exact ⟨_, hrun, rfl, rfl, rfl, rfl, by simp⟩

/-- Settles O60: by induction on the number of steps, each of which leaves the answers as they were. -/
theorem pollMayRepeatForEver : Obligations.PollMayRepeatForEver := by
  intro s d hs hturns hq hanswers hgood herr k
  induction k generalizing s with
  | zero => simp [Host.Core.run]
  | succ k ih =>
    have ha : s.env.nextDev = some (.ok d, s.env.devAnswers) := by simp [Env.nextDev, hanswers]
    refine (core_run_succ (step_poll_again hs hturns hq ha hgood herr)).trans
      ((ih _ ?_ ?_ ?_ ?_ ?_ ?_).trans ?_)
    exacts [hs, hturns, hq, hanswers, hgood, herr, by simp [answerStatus, List.replicate_succ]]

end Sys2Proof.Machine
end

section
/-! The capture record (30_encoding.md section 3): its layout and its round trip. -/

namespace Sys2Proof.Machine

open Sys2Proof

/-! ## The bytes of a header field -/

/-- Byte `j` of a word, least significant first. -/
theorem dataByte_toNat {w : Nat} (x : BitVec w) (j : Nat) :
    dataByte x.toNat j = x.extractLsb' (8 * j) 8 := by
  apply BitVec.eq_of_toNat_eq
  rw [dataByte, BitVec.toNat_ofNat, BitVec.extractLsb'_toNat, Nat.shiftRight_eq_div_pow, Nat.pow_mul]

/-- Byte `j` of the `n` bytes of a number, in either order (20_memory.md R63). -/
theorem bytesNative_getElem? (o : ByteOrder) {n v j : Nat} (h : j < n) :
    (bytesNative o n v)[j]? = some (dataByte v (if o = .little then j else n - 1 - j)) := by
  cases o with
  | little => exact answerBytes_getElem? n v j h
  | big =>
    have hlen : (bytesLE n v).length = n := bytesLE_length n v
    rw [bytesNative, bytesBE, List.getElem?_reverse (by omega), hlen]
    exact answerBytes_getElem? n v (n - 1 - j) (by omega)

/-- The bytes of a pattern read from as many bytes as its width holds are those bytes. -/
theorem bytesNative_ofNat_nativeNat (o : ByteOrder) {w n : Nat} {b : List Byte} (hlen : b.length = n)
    (hw : 256 ^ n = 2 ^ w) : bytesNative o n (BitVec.ofNat w (nativeNat o b)).toNat = b := by
  have hlt : nativeNat o b < 2 ^ w := by
    rw [← hw, ← hlen]
    exact nativeNat_lt o b
  rw [BitVec.toNat_ofNat, Nat.mod_eq_of_lt hlt, ← hlen, bytesNative_nativeNat]

/-- A pattern is read back from its bytes. -/
theorem ofNat_nativeNat_bytesNative (o : ByteOrder) {w n : Nat} (x : BitVec w) (hw : 256 ^ n = 2 ^ w) :
    BitVec.ofNat w (nativeNat o (bytesNative o n x.toNat)) = x := by
  rw [nativeNat_bytesNative, hw, Nat.mod_eq_of_lt x.isLt]
  simp

/-! ## The three fields of a record -/

section

variable (o : ByteOrder) (i : BitVec 32) (t : BitVec 64) (cir : List Byte)

theorem record_take : (record o i t cir).take 4 = bytesNative o 4 i.toNat := by
  rw [record, List.append_assoc]
  exact List.take_left' (bytesNative_length o 4 _)

theorem record_drop_take : ((record o i t cir).drop 4).take 8 = bytesNative o 8 t.toNat := by
  rw [record, List.append_assoc, List.drop_left' (bytesNative_length o 4 _)]
  exact List.take_left' (bytesNative_length o 8 _)

theorem record_drop : (record o i t cir).drop 12 = cir := by
  rw [record]
  exact List.drop_left' (by simp)

end

/-! ## The obligations -/

/-- Settles O56: a byte of the record is a byte of the field that its range is. -/
theorem recordLayout : Obligations.RecordLayout := by
  intro o i t cir
  refine ⟨record_length o i t cir, fun j hj => ?_, fun j hj => ?_, fun j => ?_⟩
  · rw [← dataByte_toNat, ← List.getElem?_take_of_lt hj, record_take]
    exact bytesNative_getElem? o hj
  · rw [← dataByte_toNat, ← List.getElem?_drop, ← List.getElem?_take_of_lt hj, record_drop_take]
    exact bytesNative_getElem? o hj
  · rw [← List.getElem?_drop, record_drop]

/-- Settles O57: the three fields are cut where they were joined, and each is the bytes of its number. -/
theorem recordRoundTrip : Obligations.RecordRoundTrip := by
  refine ⟨fun o i t c => ?_, fun o f hf => ?_⟩
  · rw [parse, record_take, record_drop_take, record_drop, ofNat_nativeNat_bytesNative o i (by norm_num),
      ofNat_nativeNat_bytesNative o t (by norm_num)]
  · have hindex : (f.take 4).length = 4 := by simp; omega
    have hts : ((f.drop 4).take 8).length = 8 := by simp; omega
    simp only [record, parse]
    rw [bytesNative_ofNat_nativeNat o hindex (by norm_num), bytesNative_ofNat_nativeNat o hts (by norm_num),
      List.append_assoc, show f.drop 12 = (f.drop 4).drop 8 by simp, List.take_append_drop,
      List.take_append_drop]

end Sys2Proof.Machine
end
